-- ==== Sys2Proof/Word.lean ====
section
/-! DEFINITION. The plain types of the FCBR block: bytes, the 32-bit read value, byte arrays of fixed
length (AES block, salt, key word) and the byte strings of the command and response ports (rule R7). -/

namespace Sys2Proof

/-- A byte, an unsigned integer 0 to 255 (rule R7). -/
abbrev Byte := BitVec 8

/-- The 32-bit value a BREAD response carries (`VALUE_BITS` of rule R6). -/
abbrev Value := BitVec 32

/-- A 16-byte array, element 0 first: an AES block, a base or salted key, a base or salted IV
(`BLOCK_BYTES`, `KEY_BYTES`, `IV_BYTES` of rule R6; rule R120). -/
abbrev Block := Vector Byte 16

/-- A 6-byte salt (`SALT_BYTES` of rule R6). -/
abbrev Salt := Vector Byte 6

/-- One 4-byte word of the AES key expansion (rule R126). -/
abbrev KeyWord := Vector Byte 4

/-- A command frame or a response frame: a finite sequence of bytes, delivered whole (rules R50, R58). -/
abbrev Frame := List Byte

end Sys2Proof
end

