-- ==== Sys2Proof/Machine/Aes.lean ====
section
/-! DEFINITION. The AES-128 block primitive of spec file 43 (rules R120 to R133), over the flat 16-byte
state `s[r + 4c]` (rule R120). The spec gives all of it from general knowledge (assumption log 5). -/

namespace Sys2Proof.Machine

/-! ### Field arithmetic (rule R122) -/

/-- `xtime(a)`, multiplication by 2 in GF(2^8) (rule R122). -/
def xtime (a : Byte) : Byte :=
  if a.toNat < 128 then BitVec.ofNat 8 (a.toNat * 2) else BitVec.ofNat 8 (a.toNat * 2) ^^^ 0x1b

/-- Multiplication by 2 (rule R122). -/
def mul2 (a : Byte) : Byte := xtime a
/-- Multiplication by 3 (rule R122). -/
def mul3 (a : Byte) : Byte := xtime a ^^^ a
/-- Multiplication by 4 (rule R122). -/
def mul4 (a : Byte) : Byte := xtime (xtime a)
/-- Multiplication by 8 (rule R122). -/
def mul8 (a : Byte) : Byte := xtime (mul4 a)
/-- Multiplication by 9 (rule R122). -/
def mul9 (a : Byte) : Byte := mul8 a ^^^ a
/-- Multiplication by 11 (rule R122). -/
def mul11 (a : Byte) : Byte := mul8 a ^^^ mul2 a ^^^ a
/-- Multiplication by 13 (rule R122). -/
def mul13 (a : Byte) : Byte := mul8 a ^^^ mul4 a ^^^ a
/-- Multiplication by 14 (rule R122). -/
def mul14 (a : Byte) : Byte := mul8 a ^^^ mul4 a ^^^ mul2 a

/-- `a · x^k`: `xtime` applied `k` times. -/
def xtimes (a : Byte) : Nat → Byte
  | 0 => a
  | k + 1 => xtime (xtimes a k)

/-- The product of two elements of GF(2^8), in which the checks of rule R122 and the inverse of rule R123 are
stated; the cipher itself uses the constants above. -/
def gfMul (a b : Byte) : Byte :=
  (List.range 8).foldl (fun v k => if b.getLsbD k then v ^^^ xtimes a k else v) 0

/-! ### The S-box and its inverse (rules R123, R124): row = high hex digit, column = low hex digit -/

/-- The rows of `SBOX` (rule R123). -/
def sboxRows : List (List Byte) :=
  [[0x63, 0x7c, 0x77, 0x7b, 0xf2, 0x6b, 0x6f, 0xc5, 0x30, 0x01, 0x67, 0x2b, 0xfe, 0xd7, 0xab, 0x76],
   [0xca, 0x82, 0xc9, 0x7d, 0xfa, 0x59, 0x47, 0xf0, 0xad, 0xd4, 0xa2, 0xaf, 0x9c, 0xa4, 0x72, 0xc0],
   [0xb7, 0xfd, 0x93, 0x26, 0x36, 0x3f, 0xf7, 0xcc, 0x34, 0xa5, 0xe5, 0xf1, 0x71, 0xd8, 0x31, 0x15],
   [0x04, 0xc7, 0x23, 0xc3, 0x18, 0x96, 0x05, 0x9a, 0x07, 0x12, 0x80, 0xe2, 0xeb, 0x27, 0xb2, 0x75],
   [0x09, 0x83, 0x2c, 0x1a, 0x1b, 0x6e, 0x5a, 0xa0, 0x52, 0x3b, 0xd6, 0xb3, 0x29, 0xe3, 0x2f, 0x84],
   [0x53, 0xd1, 0x00, 0xed, 0x20, 0xfc, 0xb1, 0x5b, 0x6a, 0xcb, 0xbe, 0x39, 0x4a, 0x4c, 0x58, 0xcf],
   [0xd0, 0xef, 0xaa, 0xfb, 0x43, 0x4d, 0x33, 0x85, 0x45, 0xf9, 0x02, 0x7f, 0x50, 0x3c, 0x9f, 0xa8],
   [0x51, 0xa3, 0x40, 0x8f, 0x92, 0x9d, 0x38, 0xf5, 0xbc, 0xb6, 0xda, 0x21, 0x10, 0xff, 0xf3, 0xd2],
   [0xcd, 0x0c, 0x13, 0xec, 0x5f, 0x97, 0x44, 0x17, 0xc4, 0xa7, 0x7e, 0x3d, 0x64, 0x5d, 0x19, 0x73],
   [0x60, 0x81, 0x4f, 0xdc, 0x22, 0x2a, 0x90, 0x88, 0x46, 0xee, 0xb8, 0x14, 0xde, 0x5e, 0x0b, 0xdb],
   [0xe0, 0x32, 0x3a, 0x0a, 0x49, 0x06, 0x24, 0x5c, 0xc2, 0xd3, 0xac, 0x62, 0x91, 0x95, 0xe4, 0x79],
   [0xe7, 0xc8, 0x37, 0x6d, 0x8d, 0xd5, 0x4e, 0xa9, 0x6c, 0x56, 0xf4, 0xea, 0x65, 0x7a, 0xae, 0x08],
   [0xba, 0x78, 0x25, 0x2e, 0x1c, 0xa6, 0xb4, 0xc6, 0xe8, 0xdd, 0x74, 0x1f, 0x4b, 0xbd, 0x8b, 0x8a],
   [0x70, 0x3e, 0xb5, 0x66, 0x48, 0x03, 0xf6, 0x0e, 0x61, 0x35, 0x57, 0xb9, 0x86, 0xc1, 0x1d, 0x9e],
   [0xe1, 0xf8, 0x98, 0x11, 0x69, 0xd9, 0x8e, 0x94, 0x9b, 0x1e, 0x87, 0xe9, 0xce, 0x55, 0x28, 0xdf],
   [0x8c, 0xa1, 0x89, 0x0d, 0xbf, 0xe6, 0x42, 0x68, 0x41, 0x99, 0x2d, 0x0f, 0xb0, 0x54, 0xbb, 0x16]]

/-- The rows of `INVSBOX` (rule R124). -/
def invSboxRows : List (List Byte) :=
  [[0x52, 0x09, 0x6a, 0xd5, 0x30, 0x36, 0xa5, 0x38, 0xbf, 0x40, 0xa3, 0x9e, 0x81, 0xf3, 0xd7, 0xfb],
   [0x7c, 0xe3, 0x39, 0x82, 0x9b, 0x2f, 0xff, 0x87, 0x34, 0x8e, 0x43, 0x44, 0xc4, 0xde, 0xe9, 0xcb],
   [0x54, 0x7b, 0x94, 0x32, 0xa6, 0xc2, 0x23, 0x3d, 0xee, 0x4c, 0x95, 0x0b, 0x42, 0xfa, 0xc3, 0x4e],
   [0x08, 0x2e, 0xa1, 0x66, 0x28, 0xd9, 0x24, 0xb2, 0x76, 0x5b, 0xa2, 0x49, 0x6d, 0x8b, 0xd1, 0x25],
   [0x72, 0xf8, 0xf6, 0x64, 0x86, 0x68, 0x98, 0x16, 0xd4, 0xa4, 0x5c, 0xcc, 0x5d, 0x65, 0xb6, 0x92],
   [0x6c, 0x70, 0x48, 0x50, 0xfd, 0xed, 0xb9, 0xda, 0x5e, 0x15, 0x46, 0x57, 0xa7, 0x8d, 0x9d, 0x84],
   [0x90, 0xd8, 0xab, 0x00, 0x8c, 0xbc, 0xd3, 0x0a, 0xf7, 0xe4, 0x58, 0x05, 0xb8, 0xb3, 0x45, 0x06],
   [0xd0, 0x2c, 0x1e, 0x8f, 0xca, 0x3f, 0x0f, 0x02, 0xc1, 0xaf, 0xbd, 0x03, 0x01, 0x13, 0x8a, 0x6b],
   [0x3a, 0x91, 0x11, 0x41, 0x4f, 0x67, 0xdc, 0xea, 0x97, 0xf2, 0xcf, 0xce, 0xf0, 0xb4, 0xe6, 0x73],
   [0x96, 0xac, 0x74, 0x22, 0xe7, 0xad, 0x35, 0x85, 0xe2, 0xf9, 0x37, 0xe8, 0x1c, 0x75, 0xdf, 0x6e],
   [0x47, 0xf1, 0x1a, 0x71, 0x1d, 0x29, 0xc5, 0x89, 0x6f, 0xb7, 0x62, 0x0e, 0xaa, 0x18, 0xbe, 0x1b],
   [0xfc, 0x56, 0x3e, 0x4b, 0xc6, 0xd2, 0x79, 0x20, 0x9a, 0xdb, 0xc0, 0xfe, 0x78, 0xcd, 0x5a, 0xf4],
   [0x1f, 0xdd, 0xa8, 0x33, 0x88, 0x07, 0xc7, 0x31, 0xb1, 0x12, 0x10, 0x59, 0x27, 0x80, 0xec, 0x5f],
   [0x60, 0x51, 0x7f, 0xa9, 0x19, 0xb5, 0x4a, 0x0d, 0x2d, 0xe5, 0x7a, 0x9f, 0x93, 0xc9, 0x9c, 0xef],
   [0xa0, 0xe0, 0x3b, 0x4d, 0xae, 0x2a, 0xf5, 0xb0, 0xc8, 0xeb, 0xbb, 0x3c, 0x83, 0x53, 0x99, 0x61],
   [0x17, 0x2b, 0x04, 0x7e, 0xba, 0x77, 0xd6, 0x26, 0xe1, 0x69, 0x14, 0x63, 0x55, 0x21, 0x0c, 0x7d]]

/-- `SBOX[a]` (rule R123). -/
def sbox (a : Byte) : Byte := (sboxRows.getD (a.toNat / 16) []).getD (a.toNat % 16) 0

/-- `INVSBOX[a]` (rule R124). -/
def invSbox (a : Byte) : Byte := (invSboxRows.getD (a.toNat / 16) []).getD (a.toNat % 16) 0

/-! ### Key expansion (rules R125, R126) -/

/-- `RCON[j]` for `j` = 1 to 10: `RCON[1] = 1`, `RCON[j+1] = xtime(RCON[j])` (rule R125). -/
def rcon : Nat → Byte
  | 0 => 1
  | 1 => 1
  | j + 2 => xtime (rcon (j + 1))

/-- The `t` of rule R126 for word `i`, from `w[i−1]`: every fourth word rotated, substituted and given its
round constant. -/
def keyMix (i : Nat) (prev : KeyWord) : KeyWord :=
  if i % 4 = 0 then
    #v[sbox prev[1] ^^^ rcon (i / 4), sbox prev[2], sbox prev[3], sbox prev[0]]
  else prev

/-- The exclusive-or of two words, byte by byte. -/
def xorWord (a b : KeyWord) : KeyWord := Vector.ofFn fun j => a[j] ^^^ b[j]

/-- The words `w[n], w[n+1], w[n+2], w[n+3]` of the key expansion (rule R126). -/
def keyWindow (K : Block) : Nat → Vector KeyWord 4
  | 0 => Vector.ofFn fun i => Vector.ofFn fun j => K[4 * i.val + j.val]
  | n + 1 =>
    let w := keyWindow K n
    #v[w[1], w[2], w[3], xorWord w[0] (keyMix (n + 4) w[3])]

/-- `w[i]` of the key expansion (rule R126). -/
def keyWord (K : Block) (i : Nat) : KeyWord := (keyWindow K i)[0]

/-- `RK[r] = w[4r] ++ w[4r+1] ++ w[4r+2] ++ w[4r+3]` (rule R126), a function of the key alone and not state
(rule R22). -/
def roundKey (K : Block) (r : Nat) : Block :=
  Vector.ofFn fun i => ((keyWindow K (4 * r))[i.val / 4])[i.val % 4]

/-! ### Round functions (rules R127 to R131) -/

/-- `⊕` on 16-byte arrays, byte by byte (rule R7). -/
def xorBlock (a b : Block) : Block := Vector.ofFn fun i => a[i] ^^^ b[i]

/-- `AddRoundKey` (rule R127). -/
def addRoundKey (s rk : Block) : Block := xorBlock s rk

/-- `SubBytes` (rule R128). -/
def subBytes (s : Block) : Block := Vector.ofFn fun i => sbox s[i]

/-- `InvSubBytes` (rule R128). -/
def invSubBytes (s : Block) : Block := Vector.ofFn fun i => invSbox s[i]

/-- `ShiftRows`: `s'[r + 4c] = s[r + 4((c + r) mod 4)]` (rule R129). -/
def shiftRows (s : Block) : Block :=
  Vector.ofFn fun i => s[i.val % 4 + 4 * ((i.val / 4 + i.val % 4) % 4)]

/-- `InvShiftRows`: `s'[r + 4c] = s[r + 4((c − r) mod 4)]` (rule R129). -/
def invShiftRows (s : Block) : Block :=
  Vector.ofFn fun i => s[i.val % 4 + 4 * ((i.val / 4 + 4 - i.val % 4) % 4)]

/-- One column of `MixColumns` (rule R130). -/
def mixColumn (a0 a1 a2 a3 : Byte) : KeyWord :=
  #v[mul2 a0 ^^^ mul3 a1 ^^^ a2 ^^^ a3,
     a0 ^^^ mul2 a1 ^^^ mul3 a2 ^^^ a3,
     a0 ^^^ a1 ^^^ mul2 a2 ^^^ mul3 a3,
     mul3 a0 ^^^ a1 ^^^ a2 ^^^ mul2 a3]

/-- One column of `InvMixColumns` (rule R131). -/
def invMixColumn (a0 a1 a2 a3 : Byte) : KeyWord :=
  #v[mul14 a0 ^^^ mul11 a1 ^^^ mul13 a2 ^^^ mul9 a3,
     mul9 a0 ^^^ mul14 a1 ^^^ mul11 a2 ^^^ mul13 a3,
     mul13 a0 ^^^ mul9 a1 ^^^ mul14 a2 ^^^ mul11 a3,
     mul11 a0 ^^^ mul13 a1 ^^^ mul9 a2 ^^^ mul14 a3]

/-- A column map applied to each of the four columns. -/
def onColumns (f : Byte → Byte → Byte → Byte → KeyWord) (s : Block) : Block :=
  Vector.ofFn fun i =>
    (f s[4 * (i.val / 4)] s[4 * (i.val / 4) + 1] s[4 * (i.val / 4) + 2]
      s[4 * (i.val / 4) + 3])[i.val % 4]

/-- `MixColumns` (rule R130). -/
def mixColumns (s : Block) : Block := onColumns mixColumn s

/-- `InvMixColumns` (rule R131). -/
def invMixColumns (s : Block) : Block := onColumns invMixColumn s

/-! ### The cipher and its inverse (rules R132, R133) -/

/-- The state after round `r` of `AES128_Encrypt`, round 0 being the first `AddRoundKey` (rule R132). -/
def encryptState (K P : Block) : Nat → Block
  | 0 => addRoundKey P (roundKey K 0)
  | r + 1 => addRoundKey (mixColumns (shiftRows (subBytes (encryptState K P r)))) (roundKey K (r + 1))

/-- `AES128_Encrypt(K, P)`: ten rounds, the last without `MixColumns` (rule R132). -/
def aesEncrypt (K P : Block) : Block :=
  addRoundKey (shiftRows (subBytes (encryptState K P 9))) (roundKey K 10)

/-- The state of `AES128_Decrypt` after `n` of its nine middle rounds, round `10 − n` having run last
(rule R133). -/
def decryptState (K C : Block) : Nat → Block
  | 0 => addRoundKey C (roundKey K 10)
  | n + 1 =>
    invMixColumns (addRoundKey (invSubBytes (invShiftRows (decryptState K C n))) (roundKey K (9 - n)))

/-- `AES128_Decrypt(K, C)`: the inverse cipher, round keys in reverse order (rule R133). -/
def aesDecrypt (K C : Block) : Block :=
  addRoundKey (invSubBytes (invShiftRows (decryptState K C 9))) (roundKey K 0)

end Sys2Proof.Machine
end

