-- ==== Sys2Proof/Config.lean ====
section
/-! DEFINITION. The one parameter an implementation fixes: `FRAME_MAX` (rule R6, decision D9, open
behaviour U4). Its value is an opaque constant, so every claim holds for every legal instance. -/

namespace Sys2Proof

/-- By how many bytes the instance's `FRAME_MAX` exceeds the lower bound 20 of rule R6. It has no body:
nothing in Lean can evaluate it (assumption log 1). -/
opaque Config.frameMaxSpare : Fin 4076

/-- `FRAME_MAX`, the largest data length CENC, CDEC and BLOAD accept: open, 20 ≤ `FRAME_MAX` ≤ 4095
(rule R6). -/
def Config.frameMax : Nat := Config.frameMaxSpare.val + 20

end Sys2Proof
end

