-- ==== Sys2Proof/Syntax.lean ====
section
/-! DEFINITION. The seven commands of the opcode map (rule R52), with their operands as the spec names
them. -/

namespace Sys2Proof

/-- A decoded command, one constructor per row of the opcode table (rules R2, R52). -/
inductive Instr where
  /-- CINIT: construct the cipher from base key, base IV and salt (rules R53, R75). -/
  | cinit (key iv salt : List Byte)
  /-- CENC: encrypt a frame (rules R54, R77). -/
  | cenc (data : List Byte)
  /-- CDEC: decrypt a frame (rules R54, R80). -/
  | cdec (data : List Byte)
  /-- BLOAD: load the reader's buffer (rules R54, R90). -/
  | bload (data : List Byte)
  /-- BREAD: read one bit field (rules R55, R56, R92). -/
  | bread (startBit : Int) (bitLength : Nat) (littleEndian : Bool)
  /-- STAT: read the STATUS register (rules R57, R110). -/
  | stat
  /-- RST: return to the reset state (rules R57, R111). -/
  | rst
  deriving DecidableEq, Repr

end Sys2Proof
end

