-- ==== Sys2Proof/WellFormed.lean ====
section
/-! DEFINITION. Which terms of `Instr` a command frame can spell: the operand ranges of rules R53 to R57. -/

namespace Sys2Proof

/-- An array whose length a length byte can hold: 0 to 255 bytes (rule R53). -/
def fitsLengthByte (xs : List Byte) : Bool := decide (xs.length ≤ 255)

/-- The operand ranges of the four formats: the three CINIT lengths are 0 to 255 (rule R53), a DATA frame
takes any length (rule R54), START is −32768 to 32767 and LEN 0 to 255 (rule R56). -/
def Instr.wellFormed : Instr → Bool
  | .cinit key iv salt => fitsLengthByte key && fitsLengthByte iv && fitsLengthByte salt
  | .cenc _ => true
  | .cdec _ => true
  | .bload _ => true
  | .bread startBit bitLength _ =>
    decide (-32768 ≤ startBit) && decide (startBit ≤ 32767) && decide (bitLength ≤ 255)
  | .stat => true
  | .rst => true

end Sys2Proof
end

