-- ==== Sys2Proof/Decode.lean ====
section
/-! DEFINITION. The decoder of rule R59, total on every byte string and refusing by name, the encoder of
the same formats (rules R53 to R57), and the reading of an opcode-table row as a frame. -/

namespace Sys2Proof

/-- The decoder's two refusals. -/
inductive DecodeError where
  /-- `E_MALFORMED`: an empty frame, or a legal opcode whose format is broken (rule R62). -/
  | malformed
  /-- `E_ILLEGAL_OP`: a non-empty frame whose opcode is 0x00 or 0x08 to 0xFF (rule R61). -/
  | illegalOp
  deriving DecidableEq, Repr

/-! ### Opcodes (rule R52) -/

/-- `Q[0]` of CINIT. -/
def opCinit : Byte := 0x01
/-- `Q[0]` of CENC. -/
def opCenc : Byte := 0x02
/-- `Q[0]` of CDEC. -/
def opCdec : Byte := 0x03
/-- `Q[0]` of BLOAD. -/
def opBload : Byte := 0x04
/-- `Q[0]` of BREAD. -/
def opBread : Byte := 0x05
/-- `Q[0]` of STAT. -/
def opStat : Byte := 0x06
/-- `Q[0]` of RST. -/
def opRst : Byte := 0x07

/-- The opcode of a command (rule R52). -/
def opcodeOf : Instr → Byte
  | .cinit _ _ _ => opCinit
  | .cenc _ => opCenc
  | .cdec _ => opCdec
  | .bload _ => opBload
  | .bread _ _ _ => opBread
  | .stat => opStat
  | .rst => opRst

/-! ### Operand assembly -/

/-- `sext_16(hi·256 + lo)`: START, high byte first, read as two's complement (rules R35, R56). -/
def assembleStart (hi lo : Byte) : Int := (hi ++ lo).toInt

/-- `FLAGS[7:1]`, the reserved bits of BREAD (rules R55, R60). -/
def flagsReserved (flags : Byte) : BitVec 7 := flags.extractLsb' 1 7

/-- `FLAGS[0]`, the little-endian request (rules R55, R56). -/
def flagsLittleEndian (flags : Byte) : Bool := flags.getLsbD 0

/-! ### Decoding, format by format; the argument is the frame after its opcode -/

/-- Format C-INIT: three length bytes, then exactly that many key, IV and salt bytes (rule R53). The length
test is on unbounded integers (rule R86 (e)). -/
def decodeCinit (body : Frame) : Except DecodeError Instr :=
  match body with
  | klen :: ilen :: slen :: arrays =>
    if arrays.length = klen.toNat + ilen.toNat + slen.toNat then
      .ok (.cinit (arrays.take klen.toNat) ((arrays.drop klen.toNat).take ilen.toNat)
        (arrays.drop (klen.toNat + ilen.toNat)))
    else .error .malformed
  | _ => .error .malformed

/-- Format READ: exactly five bytes, reserved flags zero (rules R55, R56, R60). -/
def decodeBread (body : Frame) : Except DecodeError Instr :=
  match body with
  | [hi, lo, len, flags] =>
    if flagsReserved flags = 0 then
      .ok (.bread (assembleStart hi lo) len.toNat (flagsLittleEndian flags))
    else .error .malformed
  | _ => .error .malformed

/-- Format BARE: the opcode alone (rule R57). -/
def decodeBare (i : Instr) (body : Frame) : Except DecodeError Instr :=
  match body with
  | [] => .ok i
  | _ :: _ => .error .malformed

/-- The decoder of rule R59. An empty frame is malformed; a non-empty frame with an illegal opcode is
refused as such whatever its length (rule R62). -/
def decode (Q : Frame) : Except DecodeError Instr :=
  match Q with
  | [] => .error .malformed
  | op :: body =>
    if op = opCinit then decodeCinit body
    else if op = opCenc then .ok (.cenc body)
    else if op = opCdec then .ok (.cdec body)
    else if op = opBload then .ok (.bload body)
    else if op = opBread then decodeBread body
    else if op = opStat then decodeBare .stat body
    else if op = opRst then decodeBare .rst body
    else .error .illegalOp

/-! ### Encoding -/

/-- The FLAGS byte of BREAD: bit 0 the byte order, the rest 0 (rule R55). -/
def encodeFlags (littleEndian : Bool) : Byte := if littleEndian then 1 else 0

/-- The two START bytes, high byte first (rules R35, R55). -/
def encodeStart (startBit : Int) : List Byte :=
  let w := BitVec.ofInt 16 startBit
  [w.extractLsb' 8 8, w.extractLsb' 0 8]

/-- The operands of a command, as they follow its opcode (rules R53 to R57). -/
def encodeBody : Instr → Frame
  | .cinit key iv salt =>
    BitVec.ofNat 8 key.length :: BitVec.ofNat 8 iv.length :: BitVec.ofNat 8 salt.length ::
      (key ++ iv ++ salt)
  | .cenc data => data
  | .cdec data => data
  | .bload data => data
  | .bread startBit bitLength littleEndian =>
    encodeStart startBit ++ [BitVec.ofNat 8 bitLength, encodeFlags littleEndian]
  | .stat => []
  | .rst => []

/-- The command frame of a well-formed command (rules R51 to R57). -/
def encode (i : Instr) : Frame := opcodeOf i :: encodeBody i

/-- The four command lengths of rule R63. -/
def frameLength : Instr → Nat
  | .cinit key iv salt => 4 + key.length + iv.length + salt.length
  | .cenc data => 1 + data.length
  | .cdec data => 1 + data.length
  | .bload data => 1 + data.length
  | .bread _ _ _ => 5
  | .stat => 1
  | .rst => 1

/-! ### An opcode-table row as a frame -/

/-- The bytes of a word numbered as `opcode_table.json` numbers it: bits 7 to 0 are the first byte. -/
def wordBytes (nbits w : Nat) : Frame :=
  (List.range ((nbits + 7) / 8)).map fun k => BitVec.ofNat 8 (w / 256 ^ k)

/-- `Q` with zero bytes behind it, up to `n` bytes. -/
def padZeros (n : Nat) (Q : Frame) : Frame := Q ++ List.replicate (n - Q.length) 0

/-- The frame an opcode-table word stands for: its bytes, then the zero bytes the format of its opcode still
asks for (rules R53, R55); the port delivers a frame with its length (rule R63; assumption log 8). -/
def tableFrame (nbits w : Nat) : Frame :=
  let Q := wordBytes nbits w
  if Q.head? = some opCinit then
    let H := padZeros 4 Q
    padZeros (4 + (H.getD 1 0).toNat + (H.getD 2 0).toNat + (H.getD 3 0).toNat) H
  else if Q.head? = some opBread then padZeros 5 Q
  else Q

/-- What the decoder reads from a word of `nbits` bits of the opcode table, zeros above it. -/
def decodeTableWord (nbits w : Nat) : Option Instr :=
  match decode (tableFrame nbits w) with
  | .ok i => some i
  | .error _ => none

end Sys2Proof
end

