-- ==== Sys2Proof/Machine/State.lean ====
section
/-! DEFINITION. The state of the FCBR block (rules R10 to R24) and of its host's side of the ports, the
reasons a step can stop, and the state right after reset (rules R24, R191). -/

namespace Sys2Proof.Machine

/-- What the cipher unit holds once constructed (rule R10): the salted key and the salted IV. The base key,
base IV and salt are not state. -/
structure CipherUnit where
  /-- `C.skey`, 16 bytes. -/
  skey : Block
  /-- `C.siv`, 16 bytes. -/
  siv : Block
  deriving DecidableEq, Repr

/-- What the reader unit holds once loaded (rule R13): `B.buf`, whose number of bytes is `B.len`. -/
structure ReaderUnit where
  /-- `B.buf`, element 0 first. -/
  buf : List Byte
  deriving DecidableEq, Repr

/-- What the host does next at the block's ports (rules R41, R190). -/
inductive HostAct where
  /-- Send a command frame and receive its response (rules R40, R41, R50). -/
  | command (Q : Frame)
  /-- Send a command frame and assert the reset input before the response: the command is abandoned
  (rule R190). -/
  | commandThenReset (Q : Frame)
  /-- Assert the reset input while no command is in progress; power-up is one (rule R190). -/
  | reset
  deriving DecidableEq, Repr

/-- The block's state and the two ends of its ports.
`cipher` and `reader` are `none` exactly while `C.valid`, `B.valid` are 0: the unit then holds no value
(rules R11, R14, R191; assumption log 2). -/
structure State where
  /-- The cipher unit: `C.valid` is whether it is there, `C.skey` and `C.siv` its contents (rules R10, R11). -/
  cipher : Option CipherUnit
  /-- The reader unit: `B.valid` is whether it is there, `B.len` and `B.buf` its contents (rules R13, R14). -/
  reader : Option ReaderUnit
  /-- `DIAG`, the sticky diagnostic flag (rule R16). -/
  diag : Bool
  /-- The MODEL's own field, not the block's: what the host will still do, next first (rules R18, R41;
  assumption log 3). -/
  stream : List HostAct
  /-- The MODEL's own field, not the block's: the response frames the host has received, newest first
  (rule R58; assumption log 4). -/
  responses : List Frame
  deriving DecidableEq, Repr

/-- The reasons a step could stop with a fault: none. The block has no trap mechanism and nothing stops it:
every failure is a status code in a response (rules R50, R177, R202). -/
inductive Fault where
  deriving DecidableEq, Repr

/-- The reasons a step could have no meaning. -/
inductive Refusal where
  /-- Raised by `exec` for an instruction without a meaning; no arm of `exec` raises it, since every
  command of the opcode map has its meaning. Safe. -/
  | notModelled (mnemonic : String)
  deriving DecidableEq, Repr

/-- The outcome of a step of this machine. -/
abbrev Result := Host.Outcome State Fault Refusal

/-- The machine right after reset: nothing constructed, nothing loaded, `DIAG` 0 (rules R24, R191); the host
has sent nothing and received nothing. -/
def State.reset : State where
  cipher := none
  reader := none
  diag := false
  stream := []
  responses := []

end Sys2Proof.Machine
end

