-- ==== Sys2Proof/Machine/Ops.lean ====
section
/-! DEFINITION. The shared operations: the reader's bit space, the cipher's frame buffer, the status codes
and responses (the one way a command succeeds or fails), and the writes to the state. -/

namespace Sys2Proof.Machine

/-! ### The reader bit space (rules R8, R31) -/

/-- `bit(X, k)`: bit `7 − (k mod 8)` of byte `X[k div 8]` (rule R8). Used where that byte exists (assumption log 13). -/
def bitAt (X : List Byte) (k : Nat) : Bool := (X.getD (k / 8) 0).getLsbD (7 - k % 8)

/-- `bits(X, s, n)`: the bits `s, …, s + n − 1` in rising address order (rule R8). -/
def bits (X : List Byte) (s n : Nat) : List Bool := (List.range n).map fun j => bitAt X (s + j)

/-- `ubits(X, s, n)`: those bits as an unsigned integer, the first the most significant (rule R8). -/
def ubits (X : List Byte) (s n : Nat) : Nat := (bits X s n).foldl (fun v b => 2 * v + b.toNat) 0

/-! ### The frame buffer `F` of one CENC or CDEC (rules R9, R21) -/

/-- `F[a : a+16]` as a block, index order kept (rule R36). Used where those 16 bytes exist (assumption log
13). -/
def blockAt (F : List Byte) (a : Nat) : Block := Vector.ofFn fun i => F.getD (a + i.val) 0

/-- `F[a : a+16] <- V`: overwrite those 16 bytes, leave the others (rule R9). -/
def putBlock (F : List Byte) (a : Nat) (V : Block) : List Byte :=
  F.take a ++ V.toList ++ F.drop (a + 16)

/-! ### Status codes and responses -/

/-- The eight status codes (rule R170). -/
inductive Status where
  /-- The command was performed. -/
  | ok
  /-- An out-of-bounds BREAD: value 0, `DIAG` set. -/
  | okOob
  /-- Wrong CINIT lengths; CENC or CDEC data shorter than 16 bytes. -/
  | eValidation
  /-- A BREAD bit length that is not 1 to 8, 16 or 32. -/
  | eInvalidArg
  /-- CENC or CDEC before CINIT, BREAD before BLOAD. -/
  | eNotReady
  /-- Data longer than `FRAME_MAX`. -/
  | eCapacity
  /-- The decoder's refusal of a broken format. -/
  | eMalformed
  /-- The decoder's refusal of an unknown opcode. -/
  | eIllegalOp
  deriving DecidableEq, Repr

/-- The status byte `P[0]` (rule R170). -/
def Status.code : Status → Byte
  | .ok => 0x00
  | .okOob => 0x01
  | .eValidation => 0x81
  | .eInvalidArg => 0x82
  | .eNotReady => 0x83
  | .eCapacity => 0x84
  | .eMalformed => 0x85
  | .eIllegalOp => 0x86

/-- The status of a decoder refusal (rules R61, R62). -/
def Status.ofDecodeError : DecodeError → Status
  | .malformed => .eMalformed
  | .illegalOp => .eIllegalOp

/-- `respond(status, payload)`: emit the response frame (rules R9, R58). -/
def State.respond (st : Status) (payload : List Byte) (s : State) : State :=
  { s with responses := (st.code :: payload) :: s.responses }

/-- `fail(status)`: THE ONE WAY A COMMAND FAILS. The block has no trap entry: it answers the status byte alone,
writes no state, and waits for the next command (rules R9, R170, R177). There is no return from it to
model, since nothing is saved and no failure is sticky (rule R178). -/
def State.fail (st : Status) (s : State) : State := s.respond st []

/-! ### Reading and writing the state -/

/-- `C.valid` (rule R11). -/
def State.cValid (s : State) : Bool := s.cipher.isSome

/-- `B.valid` (rule R14). -/
def State.bValid (s : State) : Bool := s.reader.isSome

/-- `B.len`, the number of bytes of `B.buf` (rule R13). -/
def ReaderUnit.len (r : ReaderUnit) : Nat := r.buf.length

/-- The byte of `B.buf` at an index, where there is one. -/
def State.bufByte (s : State) (k : Nat) : Option Byte := s.reader.bind fun r => r.buf[k]?

/-- `C.skey <- …`, `C.siv <- …`, `C.valid <- 1`, replacing the unit as a whole (rules R12, R75). -/
def State.constructCipher (skey siv : Block) (s : State) : State :=
  { s with cipher := some { skey := skey, siv := siv } }

/-- `B.buf <- data`, `B.len <- len(data)`, `B.valid <- 1`, replacing the unit as a whole (rules R14, R90). -/
def State.loadReader (data : List Byte) (s : State) : State :=
  { s with reader := some { buf := data } }

/-- `DIAG <- 1` (rules R16, R96). -/
def State.raiseDiag (s : State) : State := { s with diag := true }

/-- The reset state of the block's own state: what RST and the reset input share (rules R24, R111, R192). -/
def State.clearUnits (s : State) : State := { s with cipher := none, reader := none, diag := false }

end Sys2Proof.Machine
end

