-- ==== Sys2Proof/Machine/Operands.lean ====
section
/-! DEFINITION. The operand forms of the commands: length and range checks, the operands as blocks and
salts, the two classes of bit fields with their byte orders, and the payload of a read. -/

namespace Sys2Proof.Machine

/-! ### CINIT operands (rule R75) -/

/-- The construction check: key and IV 16 bytes, salt 6 bytes (rule R75). -/
def cinitLengthsOk (key iv salt : List Byte) : Bool :=
  decide (key.length = 16) && decide (iv.length = 16) && decide (salt.length = 6)

/-- A 16-byte operand as a block, element 0 first (rule R35). Used where the length is 16. -/
def toBlock (xs : List Byte) : Block := blockAt xs 0

/-- A 6-byte operand as a salt, element 0 first (rule R35). Used where the length is 6. -/
def toSalt (xs : List Byte) : Salt := Vector.ofFn fun i => xs.getD i.val 0

/-! ### DATA operands (rules R77, R80, R90) -/

/-- `len(data) < 16` (rules R77, R80). -/
def tooShort (data : List Byte) : Bool := decide (data.length < 16)

/-- `len(data) > FRAME_MAX` (rules R77, R80, R90). -/
def tooLong (data : List Byte) : Bool := decide (Config.frameMax < data.length)

/-! ### BREAD operands (rules R92 to R99) -/

/-- `bit_length in {1, …, 8, 16, 32}` (rules R92, R94, R95). -/
def legalBitLength (n : Nat) : Bool :=
  (decide (1 ≤ n) && decide (n ≤ 8)) || decide (n = 16) || decide (n = 32)

/-- The bounds test on unbounded integers: not `start_bit < 0` and not `start_bit + bit_length > 8·B.len`
(rules R39, R92, R101). -/
def inBounds (startBit : Int) (bitLength len : Nat) : Bool :=
  decide (0 ≤ startBit) && decide (startBit + (bitLength : Int) ≤ 8 * (len : Int))

/-- The groups `g[0], g[1], …`: consecutive 8-bit fields cut from the start bit (rules R33, R34). -/
def byteGroups (X : List Byte) (s n : Nat) : List Nat :=
  (List.range n).map fun j => ubits X (s + 8 * j) 8

/-- First group most significant: `Σ g[j]·256^(n−1−j)` (rule R33). -/
def bigEndianValue (gs : List Nat) : Nat := gs.foldl (fun v g => v * 256 + g) 0

/-- First group least significant: `Σ g[j]·256^j` (rule R33). -/
def littleEndianValue (gs : List Nat) : Nat := gs.foldr (fun g v => g + 256 * v) 0

/-- The value of an in-bounds field: up to 8 bits directly, the byte order ignored (rules R97, R99); 16 or 32
bits by groups, the byte order applied once (rule R98). -/
def fieldValue (X : List Byte) (s bitLength : Nat) (littleEndian : Bool) : Nat :=
  if bitLength ≤ 8 then ubits X s bitLength
  else if littleEndian then littleEndianValue (byteGroups X s (bitLength / 8))
  else bigEndianValue (byteGroups X s (bitLength / 8))

/-- VALUE: the field zero-extended to 32 bits (rule R58). -/
def zext32 (v : Nat) : Value := BitVec.ofNat 32 v

/-- The four payload bytes of VALUE, bits 31:24 first (rules R35, R58). -/
def valueBytes (v : Value) : List Byte :=
  [v.extractLsb' 24 8, v.extractLsb' 16 8, v.extractLsb' 8 8, v.extractLsb' 0 8]

end Sys2Proof.Machine
end

