-- ==== Sys2Proof/Machine/Cipher.lean ====
section
/-! DEFINITION. The cipher unit: salting, one-block CBC, the two-pass frame transforms, and the meanings of
CINIT, CENC and CDEC (spec file 40). -/

namespace Sys2Proof.Machine

/-! ### Salting (rules R70, R71, R86 (a)) -/

/-- `(x + s) mod 255` on the exact sum of two bytes (rule R70). -/
def saltByte (x s : Byte) : Byte := BitVec.ofNat 8 ((x.toNat + s.toNat) % 255)

/-- `Salt16(X, S)`: bytes 0 to 5 salted, bytes 6 to 15 copied (rule R70). -/
def salt16 (X : Block) (S : Salt) : Block :=
  Vector.ofFn fun i => if h : i.val < 6 then saltByte X[i] S[i.val] else X[i]

/-! ### One-block CBC (rules R72, R73) -/

/-- `CBC1_Encrypt(K, IV, P) = AES128_Encrypt(K, P ⊕ IV)` (rule R72). -/
def cbc1Encrypt (K IV P : Block) : Block := aesEncrypt K (xorBlock P IV)

/-- `CBC1_Decrypt(K, IV, C) = AES128_Decrypt(K, C) ⊕ IV` (rule R73). -/
def cbc1Decrypt (K IV C : Block) : Block := xorBlock (aesDecrypt K C) IV

/-! ### The frame transforms (rules R78, R81) -/

/-- One in-place pass over the 16 bytes of `F` from index `a` (rules R78, R81). -/
def passAt (f : Block → Block) (a : Nat) (F : List Byte) : List Byte :=
  putBlock F a (f (blockAt F a))

/-- `Encrypt(K, IV, F)`: the leading block, then, on the buffer that pass wrote, the tail block; both from the
same IV (rules R78, R196, R197). Lengths above 20 are inferred (U9; assumption log 11). -/
def encryptFrame (K IV : Block) (F : List Byte) : List Byte :=
  let F1 := passAt (cbc1Encrypt K IV) 0 F
  if 16 < F.length then passAt (cbc1Encrypt K IV) (F.length - 16) F1 else F1

/-- `Decrypt(K, IV, F)`: the tail block first, then, on the buffer that pass wrote, the leading block
(rules R81, R196, R197). -/
def decryptFrame (K IV : Block) (F : List Byte) : List Byte :=
  let F1 := if 16 < F.length then passAt (cbc1Decrypt K IV) (F.length - 16) F else F
  passAt (cbc1Decrypt K IV) 0 F1

/-- What CENC and CDEC share: the three checks in their order, then the transform of the data under the
salted key and IV, which are read only (rules R77, R80). -/
def transformCommand (f : Block → Block → List Byte → List Byte) (data : List Byte) (s : State) :
    Result :=
  match s.cipher with
  | none => .next (s.fail .eNotReady)
  | some c =>
    if tooShort data then .next (s.fail .eValidation)
    else if tooLong data then .next (s.fail .eCapacity)
    else .next (s.respond .ok (f c.skey c.siv data))

/-! ### The commands -/

/-- CINIT: construct the cipher, all three lengths checked before anything is written (rules R75, R76). -/
def execCinit (key iv salt : List Byte) (s : State) : Result :=
  if cinitLengthsOk key iv salt then
    .next ((s.constructCipher (salt16 (toBlock key) (toSalt salt))
      (salt16 (toBlock iv) (toSalt salt))).respond .ok [])
  else .next (s.fail .eValidation)

/-- CENC: encrypt a frame (rule R77). -/
def execCenc (data : List Byte) (s : State) : Result := transformCommand encryptFrame data s

/-- CDEC: decrypt a frame (rule R80). -/
def execCdec (data : List Byte) (s : State) : Result := transformCommand decryptFrame data s

end Sys2Proof.Machine
end

