-- ==== Sys2Proof/Machine/Flags.lean ====
section
/-! DEFINITION. The STATUS register, the only status register of the block, as STAT reads it (rule R20).
There are no condition codes (rule R19); `DIAG` is set by `State.raiseDiag`. -/

namespace Sys2Proof.Machine

/-- `C.valid + 2·B.valid + 4·DIAG`, bits 7:3 zero (rules R20, R110). -/
def State.statusByte (s : State) : Byte :=
  BitVec.ofNat 8 (s.cValid.toNat + 2 * s.bValid.toNat + 4 * s.diag.toNat)

end Sys2Proof.Machine
end

