-- ==== Sys2Proof/Machine/Control.lean ====
section
/-! DEFINITION. The control commands: the meanings of STAT and RST (spec file 42). -/

namespace Sys2Proof.Machine

/-- STAT: read the STATUS register; nothing is written, `DIAG` included (rule R110). -/
def execStat (s : State) : Result := .next (s.respond .ok [s.statusByte])

/-- RST: return to the reset state and answer `OK` (rules R111, R192). -/
def execRst (s : State) : Result := .next (s.clearUnits.respond .ok [])

end Sys2Proof.Machine
end

