-- ==== Sys2Proof/Machine/Reader.lean ====
section
/-! DEFINITION. The reader unit: the meanings of BLOAD and BREAD (spec file 41). -/

namespace Sys2Proof.Machine

/-- BLOAD: load the reader's buffer; no minimum length, `DIAG` not cleared (rules R90, R91). -/
def execBload (data : List Byte) (s : State) : Result :=
  if tooLong data then .next (s.fail .eCapacity)
  else .next ((s.loadReader data).respond .ok [])

/-- BREAD: read one bit field. The tests stand in the order of rule R93: the valid bit, the bit length, the
bounds; an out-of-bounds read answers 0 and sets `DIAG` (rules R92, R96). -/
def execBread (startBit : Int) (bitLength : Nat) (littleEndian : Bool) (s : State) : Result :=
  match s.reader with
  | none => .next (s.fail .eNotReady)
  | some r =>
    if legalBitLength bitLength then
      if inBounds startBit bitLength r.len then
        .next (s.respond .ok
          (valueBytes (zext32 (fieldValue r.buf startBit.toNat bitLength littleEndian))))
      else .next (s.raiseDiag.respond .okOob (valueBytes 0))
    else .next (s.fail .eInvalidArg)

end Sys2Proof.Machine
end

