-- ==== Sys2Proof/Machine/Dispatch.lean ====
section
/-! DEFINITION. One arm per command of the opcode map, each one call of its meaning. -/

namespace Sys2Proof.Machine

def exec (i : Instr) (s : State) : Host.Outcome State Fault Refusal :=
  match i with
  | .cinit key iv salt => Sys2Proof.Machine.execCinit key iv salt s
  | .cenc data => Sys2Proof.Machine.execCenc data s
  | .cdec data => Sys2Proof.Machine.execCdec data s
  | .bload data => Sys2Proof.Machine.execBload data s
  | .bread startBit bitLength littleEndian => Sys2Proof.Machine.execBread startBit bitLength littleEndian s
  | .stat => Sys2Proof.Machine.execStat s
  | .rst => Sys2Proof.Machine.execRst s

end Sys2Proof.Machine
end

