-- ==== Sys2Proof/Machine/Port.lean ====
section
/-! DEFINITION. The command port: what one act of the host does to the block (rules R40, R41, R50, R190). -/

namespace Sys2Proof.Machine

/-- The block's step relation with the command as its input (rule R18): a command frame is decoded before any
state is read (rule R59), then performed as one atomic step (rule R40); a decoder refusal is answered by its
status byte and changes no state (rules R61, R62). -/
def accept (Q : Frame) (s : State) : Result :=
  match decode Q with
  | .ok i => exec i s
  | .error e => .next (s.fail (Status.ofDecodeError e))

/-- One act of the host. Reset puts the block in the reset state and gives no response (rules R190, R192); a
command cut by it leaves neither a response nor a state write (rule R190; assumption log 7). -/
def hostAct (a : HostAct) (s : State) : Result :=
  match a with
  | .command Q => accept Q s
  | .commandThenReset _ => .next s.clearUnits
  | .reset => .next s.clearUnits

/-- The host's next act is taken from its stream and performed; the response has been received before the next
one is taken (rule R41; assumption log 6). With nothing to do the block waits, unchanged (rules R177, R202; assumption log 3). -/
def nextAct (s : State) : Result :=
  match s.stream with
  | [] => .next s
  | a :: rest => hostAct a { s with stream := rest }

end Sys2Proof.Machine
end

