-- ==== Sys2Proof/Machine/Step.lean ====
section
/-! DEFINITION. One step of the machine, and how an instruction of the opcode table is placed before it. -/

namespace Sys2Proof.Machine

/-- One step: the host's next act at the ports, performed by the block (rules R18, R40, R41). -/
def step (s : State) : Host.Outcome State Fault Refusal := nextAct s

/-- `s` with the command frame of an opcode-table word as the host's next act: what loading a program is here
(assumption log 7). -/
def State.withFetchWord (s : State) (nbits w : Nat) : State :=
  { s with stream := .command (tableFrame nbits w) :: s.stream }

end Sys2Proof.Machine
end

