-- ==== Sys2Proof/Machine/Asm.lean ====
section
/-! DEFINITION. The spec's textual form of commands and responses (rule R64, decision D25). No step of the
machine uses it. Text is a list of characters; the details the rule leaves open are assumption log 9. -/

namespace Sys2Proof.Machine.Asm

/-! ### Lines -/

/-- The byte-order operand of BREAD as it is written. -/
inductive ByteOrder where
  | be
  | le
  deriving DecidableEq, Repr

/-- One line of text: one command (rule R64). The byte order of BREAD may be left out. -/
inductive Line where
  | cinit (key iv salt : List Byte)
  | cenc (data : List Byte)
  | cdec (data : List Byte)
  | bload (data : List Byte)
  | bread (start : Int) (length : Nat) (order : Option ByteOrder)
  | stat
  | rst
  deriving DecidableEq, Repr

/-- The FLAGS bit of a written or omitted byte order: omitted gives FLAGS 00 (rule R64). -/
def littleEndianOf : Option ByteOrder → Bool
  | some .le => true
  | some .be => false
  | none => false

/-- The command a line stands for: there are no pseudo-instructions (rule R64). -/
def Line.toInstr : Line → Instr
  | .cinit key iv salt => .cinit key iv salt
  | .cenc data => .cenc data
  | .cdec data => .cdec data
  | .bload data => .bload data
  | .bread start length order => .bread start length (littleEndianOf order)
  | .stat => .stat
  | .rst => .rst

/-- What may be written: the operands fit their fields, and a read of 16 or 32 bits says its byte order
(rule R64, conflict C6). -/
def Line.legal (l : Line) : Bool :=
  l.toInstr.wellFormed &&
  match l with
  | .bread _ length none => decide (length ≠ 16) && decide (length ≠ 32)
  | _ => true

/-- The one command frame a legal line encodes (rule R64). -/
def assemble (l : Line) : Option Frame := if l.legal then some (encode l.toInstr) else none

/-! ### Reading text -/

/-- The characters before the comment sign `#`. -/
def stripComment (cs : List Char) : List Char := cs.takeWhile (· ≠ '#')

/-- Without spaces at the front. -/
def trimLeft (cs : List Char) : List Char := cs.dropWhile (· = ' ')

/-- Without spaces at either end. -/
def trim (cs : List Char) : List Char := (trimLeft (trimLeft cs).reverse).reverse

/-- The pieces between commas, always at least one. -/
def splitComma : List Char → List (List Char)
  | [] => [[]]
  | c :: cs =>
    match splitComma cs with
    | [] => [[c]]
    | p :: ps => if c = ',' then [] :: p :: ps else (c :: p) :: ps

/-- The value of a decimal digit. -/
def decDigit (c : Char) : Option Nat :=
  if 48 ≤ c.toNat ∧ c.toNat ≤ 57 then some (c.toNat - 48) else none

/-- The value of a hexadecimal digit, either case. -/
def hexDigit (c : Char) : Option Nat :=
  if 97 ≤ c.toNat ∧ c.toNat ≤ 102 then some (c.toNat - 87)
  else if 65 ≤ c.toNat ∧ c.toNat ≤ 70 then some (c.toNat - 55)
  else decDigit c

/-- Digits in a base, the most significant first; `acc` is what stands before them. -/
def digitsFrom (digit : Char → Option Nat) (base : Nat) (acc : Nat) : List Char → Option Nat
  | [] => some acc
  | c :: cs =>
    match digit c with
    | some d => digitsFrom digit base (acc * base + d) cs
    | none => none

/-- An unsigned integer, decimal or `0x` hexadecimal (rule R64). -/
def natLit (cs : List Char) : Option Nat :=
  match cs with
  | [] => none
  | ['0', 'x'] => none
  | '0' :: 'x' :: ds => digitsFrom hexDigit 16 0 ds
  | ds => digitsFrom decDigit 10 0 ds

/-- An integer with an optional minus sign (rule R64: `<start>` is signed). -/
def intLit (cs : List Char) : Option Int :=
  match cs with
  | '-' :: ds => (natLit ds).map fun n => -(n : Int)
  | ds => (natLit ds).map fun n => (n : Int)

/-- Two digits per byte, element 0 first. -/
def hexPairs : List Char → Option (List Byte)
  | [] => some []
  | [_] => none
  | h :: l :: cs =>
    match hexDigit h, hexDigit l, hexPairs cs with
    | some a, some b, some bs => some (BitVec.ofNat 8 (16 * a + b) :: bs)
    | _, _, _ => none

/-- A byte array: a hexadecimal string, optionally with spaces (rule R64). -/
def hexBytes (cs : List Char) : Option (List Byte) := hexPairs (cs.filter (· ≠ ' '))

/-- `<name>=<hex>`. -/
def namedHex (name cs : List Char) : Option (List Byte) :=
  let t := trim cs
  if t.take (name.length + 1) = name ++ ['='] then hexBytes (t.drop (name.length + 1)) else none

/-- `BE` or `LE`. -/
def orderWord (cs : List Char) : Option ByteOrder :=
  if cs = ['B', 'E'] then some .be else if cs = ['L', 'E'] then some .le else none

/-- The operands of CINIT. -/
def readCinit (args : List Char) : Option Line :=
  match splitComma args with
  | [k, v, t] =>
    match namedHex ['k', 'e', 'y'] k, namedHex ['i', 'v'] v, namedHex ['s', 'a', 'l', 't'] t with
    | some key, some iv, some salt => some (.cinit key iv salt)
    | _, _, _ => none
  | _ => none

/-- The operands of BREAD. -/
def readBread (args : List Char) : Option Line :=
  match (splitComma args).map trim with
  | [s, n] =>
    match intLit s, natLit n with
    | some start, some length => some (.bread start length none)
    | _, _ => none
  | [s, n, o] =>
    match intLit s, natLit n, orderWord o with
    | some start, some length, some order => some (.bread start length (some order))
    | _, _, _ => none
  | _ => none

/-- The command of one line of text; none where it spells no command (rule R64). -/
def parseLine (text : List Char) : Option Line :=
  let cs := trim (stripComment text)
  let name := cs.takeWhile (· ≠ ' ')
  let args := trim (cs.dropWhile (· ≠ ' '))
  if name = ['C', 'I', 'N', 'I', 'T'] then readCinit args
  else if name = ['C', 'E', 'N', 'C'] then (hexBytes args).map .cenc
  else if name = ['C', 'D', 'E', 'C'] then (hexBytes args).map .cdec
  else if name = ['B', 'L', 'O', 'A', 'D'] then (hexBytes args).map .bload
  else if name = ['B', 'R', 'E', 'A', 'D'] then readBread args
  else if name = ['S', 'T', 'A', 'T'] then (if args = [] then some .stat else none)
  else if name = ['R', 'S', 'T'] then (if args = [] then some .rst else none)
  else none

/-- The frame of one line of text. -/
def assembleText (text : List Char) : Option Frame := (parseLine text).bind assemble

/-! ### Writing a response: `-> <status name> <payload hex>` -/

/-- The status with a given code (rule R170). -/
def statusOfCode (b : Byte) : Option Status :=
  [Status.ok, .okOob, .eValidation, .eInvalidArg, .eNotReady, .eCapacity, .eMalformed, .eIllegalOp].find?
    fun st => st.code = b

/-- The name of a status (rule R170). -/
def statusName : Status → List Char
  | .ok => ['O', 'K']
  | .okOob => ['O', 'K', '_', 'O', 'O', 'B']
  | .eValidation => ['E', '_', 'V', 'A', 'L', 'I', 'D', 'A', 'T', 'I', 'O', 'N']
  | .eInvalidArg => ['E', '_', 'I', 'N', 'V', 'A', 'L', 'I', 'D', '_', 'A', 'R', 'G']
  | .eNotReady => ['E', '_', 'N', 'O', 'T', '_', 'R', 'E', 'A', 'D', 'Y']
  | .eCapacity => ['E', '_', 'C', 'A', 'P', 'A', 'C', 'I', 'T', 'Y']
  | .eMalformed => ['E', '_', 'M', 'A', 'L', 'F', 'O', 'R', 'M', 'E', 'D']
  | .eIllegalOp => ['E', '_', 'I', 'L', 'L', 'E', 'G', 'A', 'L', '_', 'O', 'P']

/-- A hexadecimal digit, upper case. -/
def hexChar (n : Nat) : Char := if n < 10 then Char.ofNat (48 + n) else Char.ofNat (55 + n)

/-- Two digits per byte. -/
def hexText (bs : List Byte) : List Char :=
  bs.flatMap fun b => [hexChar (b.toNat / 16), hexChar (b.toNat % 16)]

/-- The text of a response frame (rule R64). -/
def responseText (P : Frame) : Option (List Char) :=
  match P with
  | [] => none
  | b :: payload =>
    (statusOfCode b).map fun st =>
      ['-', '>', ' '] ++ statusName st ++ (if payload = [] then [] else ' ' :: hexText payload)

end Sys2Proof.Machine.Asm
end

