-- ==== Sys2Proof/Machine/Gen2.lean ====
section
/-! DEFINITION. Context, not the block: what the host's Gen2 software does with the fields it reads and the
commands it sends (spec file 44, rules R143 to R159). Rule R5 places it outside the block, so no step of the
machine uses it and none of it is in `State` (rule R23); what the spec leaves open is an argument here
(assumption log 10). -/

namespace Sys2Proof.Machine.Gen2

/-- The value of one BREAD on buffer `X`: the field where it is in bounds, else the lenient 0 (rules R96, R199). -/
def hostRead (X : List Byte) (start len : Nat) (littleEndian : Bool) : Nat :=
  if inBounds start len X.length then fieldValue X start len littleEndian else 0

/-! ### The event type (rule R143) -/

/-- The enumerated types of the 4-bit field at bit 0. -/
inductive EventType where
  | gyro
  | move
  | facelets
  | hardware
  | battery
  | disconnect
  deriving DecidableEq, Repr

/-- The type of a code; an unrecognised code has none (rule R143). -/
def eventTypeOf (code : Nat) : Option EventType :=
  if code = 0x1 then some .gyro
  else if code = 0x2 then some .move
  else if code = 0x4 then some .facelets
  else if code = 0x5 then some .hardware
  else if code = 0x9 then some .battery
  else if code = 0xD then some .disconnect
  else none

/-! ### Fields (rules R143, R145 to R147, R149, R150) -/

/-- An `n`-bit sign-magnitude field: high bit the sign, `(1 − 2·sign)·magnitude` (rule R143). -/
def signMagnitude (n v : Nat) : Int := (1 - 2 * ((v / 2 ^ (n - 1) : Nat) : Int)) * ((v % 2 ^ (n - 1) : Nat) : Int)

/-- A quaternion component: the 16-bit field over 0x7FFF (rule R143). -/
def quaternionValue (v : Nat) : Rat := (signMagnitude 16 v : Rat) / 0x7FFF

/-- A GYRO event. -/
structure Gyro where
  qw : Rat
  qx : Rat
  qy : Rat
  qz : Rat
  vx : Int
  vy : Int
  vz : Int
  deriving DecidableEq, Repr

/-- The GYRO fields (rules R143, R155). -/
def readGyro (le : Bool) (X : List Byte) : Gyro where
  qw := quaternionValue (hostRead X 4 16 le)
  qx := quaternionValue (hostRead X 20 16 le)
  qy := quaternionValue (hostRead X 36 16 le)
  qz := quaternionValue (hostRead X 52 16 le)
  vx := signMagnitude 4 (hostRead X 68 4 le)
  vy := signMagnitude 4 (hostRead X 72 4 le)
  vz := signMagnitude 4 (hostRead X 76 4 le)

/-- The six faces in their order U, R, F, D, L, B (rule R145). -/
def faceLetters : List Char := ['U', 'R', 'F', 'D', 'L', 'B']

/-- The move token: the face letter, then `'` if the direction is CCW (rule R145). -/
def moveToken (face direction : Nat) : List Char :=
  faceLetters.getD face 'U' :: (if direction = 1 then ['\''] else [])

/-- A move that was decoded: its serial and token, and for the newest slot only the host's timestamp (rule R144).
That it also carries a cube time is the model's choice: rule R145 adds `elapsed` to `cube_timestamp_accumulator` and
names no such field of an event (DESIGN CHOICE, assumption log 10). -/
structure Move where
  serial : Nat
  token : List Char
  /-- The accumulator after this slot's `elapsed` was added: the model's choice (assumption log 10). -/
  cubeTimestamp : Int
  hostTimestamp : Option Int
  deriving DecidableEq, Repr

/-- The last element of a permutation vector: what is left to the sum (rule R147). -/
def deriveToSum (total : Int) (xs : List Nat) : Int := total - ((xs.sum : Nat) : Int)

/-- The last element of an orientation vector: `(m − (sum mod m)) mod m` (rule R147). -/
def deriveMod (m : Nat) (xs : List Nat) : Nat := (m - xs.sum % m) % m

/-- The four vectors of a FACELETS frame, the derived last elements included (rules R146, R147). -/
structure CubeVectors where
  cp : List Int
  co : List Int
  ep : List Int
  eo : List Int
  deriving DecidableEq, Repr

/-- `count` fields of `width` bits from bit `start`, one behind the other (rules R146, R155). -/
def readFields (le : Bool) (X : List Byte) (start width count : Nat) : List Nat :=
  (List.range count).map fun i => hostRead X (start + width * i) width le

/-- A transmitted vector with its derived last element. -/
def withLast (xs : List Nat) (last : Int) : List Int := xs.map (fun (x : Nat) => (x : Int)) ++ [last]

/-- The FACELETS fields (rules R146, R147). -/
def readVectors (le : Bool) (X : List Byte) : CubeVectors :=
  let cp := readFields le X 12 3 7
  let co := readFields le X 33 2 7
  let ep := readFields le X 47 4 11
  let eo := readFields le X 91 1 11
  { cp := withLast cp (deriveToSum 28 cp)
    co := withLast co (deriveMod 3 co)
    ep := withLast ep (deriveToSum 66 ep)
    eo := withLast eo (deriveMod 2 eo) }

/-- A HARDWARE event (rule R149). -/
structure Hardware where
  hwMajor : Nat
  hwMinor : Nat
  swMajor : Nat
  swMinor : Nat
  name : List Nat
  gyroSupported : Bool
  deriving DecidableEq, Repr

/-- The HARDWARE fields (rules R149, R155). -/
def readHardware (le : Bool) (X : List Byte) : Hardware where
  hwMajor := hostRead X 8 8 le
  hwMinor := hostRead X 16 8 le
  swMajor := hostRead X 24 8 le
  swMinor := hostRead X 32 8 le
  name := readFields le X 40 8 8
  gyroSupported := decide (hostRead X 104 1 le = 1)

/-- The BATTERY level, clamped to 100 (rule R150). -/
def batteryLevel (v : Nat) : Nat := min v 100

/-! ### Facelet reconstruction (rule R148) -/

/-- The lookup tables, which the spec does not give: an argument (gap N9). -/
structure FaceletTables where
  corner : Vector (Vector (Fin 54) 3) 8
  edge : Vector (Vector (Fin 54) 2) 12
  deriving DecidableEq, Repr

/-- The solved colour of a facelet, nine of each face in the order U, R, F, D, L, B (rule R159). -/
def solvedColor (f : Fin 54) : Char := faceLetters.getD (f.val / 9) 'U'

/-- The solved cube's facelets, the default of every facelet (rules R148, R159). -/
def solvedFacelets : Vector Char 54 := Vector.ofFn solvedColor

/-- One slot: facelet at table position `(p + o) mod m` of slot `i` takes the colour of facelet `p` of the home
slot of the piece; a piece or orientation out of range leaves the slot as it is (rule R148). -/
def placePiece {m n : Nat} (table : Vector (Vector (Fin 54) m) n) (v : Vector Char 54) (i : Fin n)
    (piece orient : Int) : Vector Char 54 :=
  if h : piece.toNat < n ∧ 0 ≤ piece ∧ 0 ≤ orient ∧ orient < (m : Int) then
    (List.finRange m).foldl (fun u p =>
      let target := table[i][(p.val + orient.toNat) % m]'(Nat.mod_lt _ (Nat.lt_of_le_of_lt (Nat.zero_le _) p.isLt))
      u.set target.val (solvedColor (table[piece.toNat]'h.1)[p]) target.isLt) v
  else v

/-- All slots of one table. -/
def placeAll {m n : Nat} (table : Vector (Vector (Fin 54) m) n) (pieces orients : List Int)
    (v : Vector Char 54) : Vector Char 54 :=
  (List.finRange n).foldl (fun u i =>
    placePiece table u i (pieces.getD i.val (-1)) (orients.getD i.val (-1))) v

/-- The 54-character facelet string (rule R148). -/
def reconstruct (t : FaceletTables) (c : CubeVectors) : List Char :=
  (placeAll t.edge c.ep c.eo (placeAll t.corner c.cp c.co solvedFacelets)).toList

/-! ### The driver (rules R144 to R146, R153) -/

/-- The driver's sequencing state, not state of the block (rules R23, R153); `none` is −1. -/
structure Driver where
  lastSerial : Option Nat
  lastMoveHostTimestamp : Int
  cubeTimestampAccumulator : Int
  deriving DecidableEq, Repr

/-- What a frame decodes to. Rule R153 names the event objects; of what they hold the spec states the move
event's serial, token and host timestamp (R144, R145), and the rest is the model's choice (DESIGN CHOICE, assumption
log 10): the fields the event's rule reads and nothing else. -/
inductive Event where
  | gyro (g : Gyro)
  | move (m : Move)
  /-- The four vectors and the facelet string, without the frame's serial: rule R146 says only that one such event is
  emitted (DESIGN CHOICE, assumption log 10). -/
  | facelets (vectors : CubeVectors) (text : List Char)
  | hardware (h : Hardware)
  | battery (level : Nat)
  deriving DecidableEq, Repr

/-- `min((serial − last_serial) mod 256, 7)` (rule R144). -/
def serialDiff (serial last : Nat) : Nat := min (((serial : Int) - (last : Int)) % 256).toNat 7

/-- One move slot: a face of 6 or more is skipped; `elapsed` 0 is replaced by the host-timestamp difference;
the accumulator advances (rule R145). The event is given the accumulator's value after the addition, which the rule does
not say (DESIGN CHOICE, assumption log 10). -/
def moveSlot (le : Bool) (X : List Byte) (hostTimestamp : Int) (serial : Nat) (acc : Driver × List Event)
    (i : Nat) : Driver × List Event :=
  let d := acc.1
  let face := hostRead X (12 + 5 * i) 4 le
  let direction := hostRead X (16 + 5 * i) 1 le
  if face ≥ 6 ∨ direction ≥ 2 then acc
  else
    let raw := hostRead X (47 + 16 * i) 16 le
    let elapsed : Int := if raw = 0 then hostTimestamp - d.lastMoveHostTimestamp else (raw : Int)
    let t := d.cubeTimestampAccumulator + elapsed
    ({ d with cubeTimestampAccumulator := t },
     acc.2 ++ [.move
      { serial := (((serial : Int) - (i : Int)) % 256).toNat
        token := moveToken face direction
        cubeTimestamp := t
        hostTimestamp := if i = 0 then some hostTimestamp else none }])

/-- A MOVE frame: the first one only sets the serial; later ones recover up to 7 moves, oldest first (rule R144). -/
def handleMove (le : Bool) (hostTimestamp : Int) (X : List Byte) (d : Driver) : Driver × List Event :=
  let serial := hostRead X 4 8 le
  match d.lastSerial with
  | none => ({ d with lastSerial := some serial }, [])
  | some last =>
    let diff := serialDiff serial last
    if diff = 0 then (d, [])
    else
      let r := (List.range diff).reverse.foldl (moveSlot le X hostTimestamp serial) (d, [])
      ({ r.1 with lastSerial := some serial, lastMoveHostTimestamp := hostTimestamp }, r.2)

/-- A FACELETS frame: sets the serial if unset, emits one event (rule R146). What the event carries is assumption log
10. -/
def handleFacelets (t : FaceletTables) (le : Bool) (X : List Byte) (d : Driver) : Driver × List Event :=
  let d' : Driver := match d.lastSerial with
    | none => { d with lastSerial := some (hostRead X 4 8 le) }
    | some _ => d
  (d', [.facelets (readVectors le X) (reconstruct t (readVectors le X))])

/-- `handle_state_event` of Gen2 on a decrypted frame (rules R141, R143 to R150). The byte order of the 16-bit
fields is an argument (gap N5). -/
def handleStateEvent (t : FaceletTables) (le : Bool) (hostTimestamp : Int) (X : List Byte) (d : Driver) :
    Driver × List Event :=
  match eventTypeOf (hostRead X 0 4 le) with
  | some .gyro => (d, [.gyro (readGyro le X)])
  | some .move => handleMove le hostTimestamp X d
  | some .facelets => handleFacelets t le X d
  | some .hardware => (d, [.hardware (readHardware le X)])
  | some .battery => (d, [.battery (batteryLevel (hostRead X 8 8 le))])
  | some .disconnect => (d, [])
  | none => (d, [])

/-- `handle_state_event` of Gen3 and Gen4: always the empty event list (rule R152, open behaviour U2). -/
def handleStateEventGen34 (_ : List Byte) (d : Driver) : Driver × List Event := (d, [])

/-! ### Outbound command plaintexts (rule R151) -/

/-- The four kinds of Gen2 command message. -/
inductive CommandKind where
  | requestFacelets
  | requestHardware
  | requestBattery
  | requestReset
  deriving DecidableEq, Repr

/-- The non-zero leading bytes of a kind (rule R151). -/
def commandLead : CommandKind → List Byte
  | .requestFacelets => [0x04]
  | .requestHardware => [0x05]
  | .requestBattery => [0x09]
  | .requestReset => [0x0A, 0x05, 0x39, 0x77, 0x00, 0x00, 0x01, 0x23, 0x45, 0x67, 0x89, 0xAB]

/-- `create_command_message(kind)`: the leading bytes, zero padded to 20; an unknown kind gives no message
(rule R151). -/
def createCommandMessage (kind : Option CommandKind) : Option (List Byte) :=
  kind.map fun k => padZeros 20 (commandLead k)

/-! ### The BREAD requests of one Gen2 frame (rule R155) -/

/-- Every `(start_bit, bit_length)` the Gen2 decoder reads (rule R155). -/
def requests : List (Nat × Nat) :=
  [(0, 4), (4, 16), (20, 16), (36, 16), (52, 16), (68, 4), (72, 4), (76, 4), (4, 8)]
  ++ (List.range 7).map (fun i => (12 + 5 * i, 4))
  ++ (List.range 7).map (fun i => (16 + 5 * i, 1))
  ++ (List.range 7).map (fun i => (47 + 16 * i, 16))
  ++ (List.range 7).map (fun i => (12 + 3 * i, 3))
  ++ (List.range 7).map (fun i => (33 + 2 * i, 2))
  ++ (List.range 11).map (fun i => (47 + 4 * i, 4))
  ++ (List.range 11).map (fun i => (91 + i, 1))
  ++ [(8, 8), (16, 8), (24, 8), (32, 8)]
  ++ (List.range 8).map (fun j => (40 + 8 * j, 8))
  ++ [(104, 1)]

end Sys2Proof.Machine.Gen2
end

