-- ==== Sys2Proof/Safety.lean ====
section
/-! DEFINITION. The terms claims are stated in: which parts of the state are unchanged, the invariant of the
block, well-formed responses, the priority order of rule R176, and views of two states. -/

namespace Sys2Proof.Machine

/-! ### Frames -/

/-- The block's own state is unchanged: `C.*`, `B.*` and `DIAG` (rule R177). -/
def UnitsUnchanged (s t : State) : Prop :=
  t.cipher = s.cipher ∧ t.reader = s.reader ∧ t.diag = s.diag

/-- The command was answered by exactly one response frame and the host's further acts are untouched
(rules R41, R58). -/
def Answered (s t : State) (P : Frame) : Prop :=
  t.responses = P :: s.responses ∧ t.stream = s.stream

/-- Every bit address of the reader's space reads as before, and exists as before (rules R30, R39). -/
def BufferUnchanged (s t : State) : Prop :=
  t.bValid = s.bValid ∧ ∀ k, t.bufByte k = s.bufByte k

/-- The status byte of a response (rule R58). -/
def statusOf (P : Frame) : Option Byte := P.head?

/-- The command failed: bit 7 of its status byte is set (rule R170). -/
def failedResponse (P : Frame) : Bool := (P.headD 0).getLsbD 7

/-! ### The invariant -/

/-- A salted array: bytes 0 to 5 are never 0xFF (rule R71 (a)). -/
def Salted (X : Block) : Prop := ∀ i : Fin 16, i.val < 6 → X[i] ≠ 0xFF#8

/-- A response frame with one of the eight status codes, four zero bytes of value under `OK_OOB`, and nothing
after an error code (rules R58, R170). -/
def ResponseWf (P : Frame) : Prop :=
  ∃ (st : Status) (payload : List Byte), P = st.code :: payload ∧
    (failedResponse P = true → payload = []) ∧ (st = .okOob → payload = [0, 0, 0, 0])

/-- The invariant of the machine: what the cipher unit holds is salted (rules R10, R71), the reader's buffer
fits `FRAME_MAX` (rule R13), and every response given is well formed (rule R58). -/
def BlockInv (s : State) : Prop :=
  (∀ c, s.cipher = some c → Salted c.skey ∧ Salted c.siv) ∧
  (∀ r, s.reader = some r → r.len ≤ Config.frameMax) ∧
  (∀ P ∈ s.responses, ResponseWf P)

/-- The reader's buffer fits `FRAME_MAX`: the form every load keeps (rule R13). -/
def ReaderFits (s : State) : Prop := ∀ r, s.reader = some r → r.len ≤ Config.frameMax

/-! ### The priority order of rule R176 -/

/-- Which of a broken or an unknown frame it is, on the bytes alone: steps 1 to 3 of rule R176. -/
def frameRefusal (Q : Frame) : Option Status :=
  if Q.length = 0 then some .eMalformed
  else if Q.getD 0 0 = 0 ∨ 8 ≤ (Q.getD 0 0).toNat then some .eIllegalOp
  else if (Q.getD 0 0 = 1 ∧ (Q.length < 4 ∨
        Q.length ≠ 4 + (Q.getD 1 0).toNat + (Q.getD 2 0).toNat + (Q.getD 3 0).toNat)) ∨
      (Q.getD 0 0 = 5 ∧ (Q.length ≠ 5 ∨ 2 ≤ (Q.getD 4 0).toNat)) ∨
      ((Q.getD 0 0 = 6 ∨ Q.getD 0 0 = 7) ∧ Q.length ≠ 1) then some .eMalformed
  else none

/-- START of a five-byte frame as an integer, from the bytes: patterns 0x8000 and above are negative
(rule R56). -/
def startOf (Q : Frame) : Int :=
  let p := (Q.getD 1 0).toNat * 256 + (Q.getD 2 0).toNat
  if p < 32768 then (p : Int) else (p : Int) - 65536

/-- The one status a command frame is answered with in a state, the first of rule R176's list whose condition
holds; conditions are read from the frame's bytes and the state alone. -/
def prioritisedStatus (Q : Frame) (s : State) : Status :=
  let op := Q.getD 0 0
  let len := Q.length - 1
  let bitLength := (Q.getD 3 0).toNat
  let bLen := (s.reader.map ReaderUnit.len).getD 0
  match frameRefusal Q with
  | some st => st
  | none =>
    if ((op = 2 ∨ op = 3) ∧ s.cValid = false) ∨ (op = 5 ∧ s.bValid = false) then .eNotReady
    else if (op = 1 ∧ ¬ (Q.getD 1 0 = 16 ∧ Q.getD 2 0 = 16 ∧ Q.getD 3 0 = 6)) ∨
        ((op = 2 ∨ op = 3) ∧ len < 16) then .eValidation
    else if op = 5 ∧ ¬ ((1 ≤ bitLength ∧ bitLength ≤ 8) ∨ bitLength = 16 ∨ bitLength = 32) then .eInvalidArg
    else if (op = 2 ∨ op = 3 ∨ op = 4) ∧ Config.frameMax < len then .eCapacity
    else if op = 5 ∧ (startOf Q < 0 ∨ 8 * (bLen : Int) < startOf Q + (bitLength : Int)) then .okOob
    else .ok

/-! ### Two states compared -/

/-- What a command other than CENC and CDEC can learn of the cipher unit: whether it is constructed, and all
the rest of the state (rules R15, R112). -/
def SameButKey (s t : State) : Prop :=
  s.cValid = t.cValid ∧ s.reader = t.reader ∧ s.diag = t.diag ∧ s.stream = t.stream ∧
    s.responses = t.responses

/-- Two states that agree on the block's own state. -/
def SameUnits (s t : State) : Prop := s.cipher = t.cipher ∧ s.reader = t.reader ∧ s.diag = t.diag

/-! ### The AES field, as rule R123 speaks of it -/

/-- `b` is the multiplicative inverse of `a` in GF(2^8), 0 for 0 (rule R123). -/
def IsGfInverse (a b : Byte) : Prop := (a = 0 ∧ b = 0) ∨ (a ≠ 0 ∧ gfMul a b = 1)

/-- `b ⊕ rotl8(b,1) ⊕ rotl8(b,2) ⊕ rotl8(b,3) ⊕ rotl8(b,4) ⊕ 0x63` (rule R123). -/
def sboxAffine (b : Byte) : Byte :=
  b ^^^ b.rotateLeft 1 ^^^ b.rotateLeft 2 ^^^ b.rotateLeft 3 ^^^ b.rotateLeft 4 ^^^ 0x63

end Sys2Proof.Machine
end

