-- ==== Sys2Proof/Certificates/Slice0/Obligations.lean ====
section
/-! DEFINITION. The statements about the FCBR block, from the numbered rules of the spec. -/

open Sys2Proof Sys2Proof.Machine

/-! ### Encoding and the decoder -/

/-- Decoding the frame of a well-formed command gives the command back, with every operand at every value its
format admits (rules R53 to R57, R59). -/
def Obligations.DecodeOfEncode : Prop :=
  ∀ i : Instr, i.wellFormed = true → decode (encode i) = .ok i

/-- A frame that decodes to a command is the only frame of that command (rules R53 to R57, R59). -/
def Obligations.EncodeOfDecode : Prop :=
  ∀ (Q : Frame) (i : Instr), decode Q = .ok i → i.wellFormed = true ∧ encode i = Q

/-- Rule R59: the decoder as the spec writes it, over the bytes `Q[0], …, Q[n−1]` of the frame. -/
def Obligations.DecodeByFormat : Prop :=
  ∀ Q : Frame,
    let n := Q.length
    let q := fun k => Q.getD k 0
    let klen := (q 1).toNat
    let ilen := (q 2).toNat
    let slen := (q 3).toNat
    decode Q =
      if n = 0 then .error .malformed
      else if q 0 = 0x01 then
        if n < 4 then .error .malformed
        else if n ≠ 4 + klen + ilen + slen then .error .malformed
        else .ok (.cinit ((Q.drop 4).take klen) ((Q.drop (4 + klen)).take ilen) (Q.drop (4 + klen + ilen)))
      else if q 0 = 0x02 then .ok (.cenc (Q.drop 1))
      else if q 0 = 0x03 then .ok (.cdec (Q.drop 1))
      else if q 0 = 0x04 then .ok (.bload (Q.drop 1))
      else if q 0 = 0x05 then
        if n ≠ 5 then .error .malformed
        else if (q 4).toNat / 2 ≠ 0 then .error .malformed
        else .ok (.bread (BitVec.ofNat 16 ((q 1).toNat * 256 + (q 2).toNat)).toInt (q 3).toNat ((q 4).getLsbD 0))
      else if q 0 = 0x06 then (if n ≠ 1 then .error .malformed else .ok .stat)
      else if q 0 = 0x07 then (if n ≠ 1 then .error .malformed else .ok .rst)
      else .error .illegalOp

/-- Rule R61. -/
def Obligations.IllegalOpcodeRefused : Prop :=
  ∀ (op : Byte) (body : Frame) (s : State), (op = 0x00 ∨ 0x08 ≤ op.toNat) →
    ∃ t, accept (op :: body) s = .next t ∧ Answered s t [0x86] ∧ UnitsUnchanged s t

/-- Rule R62: exactly these frames are malformed, they are answered 0x85, and a non-empty frame with an illegal
opcode is not one of them. -/
def Obligations.MalformedFrameRefused : Prop :=
  (∀ Q : Frame, decode Q = .error .malformed ↔
    Q = [] ∨
    (Q.getD 0 0 = 1 ∧
      (Q.length < 4 ∨ Q.length ≠ 4 + (Q.getD 1 0).toNat + (Q.getD 2 0).toNat + (Q.getD 3 0).toNat)) ∨
    (Q.getD 0 0 = 5 ∧ (Q.length ≠ 5 ∨ 2 ≤ (Q.getD 4 0).toNat)) ∨
    ((Q.getD 0 0 = 6 ∨ Q.getD 0 0 = 7) ∧ Q.length ≠ 1)) ∧
  (∀ (Q : Frame) (s : State), decode Q = .error .malformed →
    ∃ t, accept Q s = .next t ∧ Answered s t [0x85] ∧ UnitsUnchanged s t) ∧
  (∀ (op : Byte) (body : Frame), decode (op :: body) = .error .illegalOp ↔ op = 0x00 ∨ 0x08 ≤ op.toNat)

/-- A few frames written out from rules R53 to R57 decode to the commands they stand for. -/
def Obligations.SampleFramesDecode : Prop :=
  decode [0x01, 0x01, 0x02, 0x01, 0xAA, 0xBB, 0xCC, 0xDD] = .ok (.cinit [0xAA] [0xBB, 0xCC] [0xDD]) ∧
  decode [0x02, 0x10, 0x20] = .ok (.cenc [0x10, 0x20]) ∧
  decode [0x03] = .ok (.cdec []) ∧
  decode [0x04, 0x80] = .ok (.bload [0x80]) ∧
  decode [0x05, 0x00, 0x2F, 0x10, 0x01] = .ok (.bread 47 16 true) ∧
  decode [0x05, 0xFF, 0xF8, 0x10, 0x00] = .ok (.bread (-8) 16 false) ∧
  decode [0x06] = .ok .stat ∧
  decode [0x07] = .ok .rst

/-- Rule R56: START is a 16-bit two's-complement integer, high byte first; LEN is unscaled; LE is FLAGS bit 0; and
every start of an in-bounds field of one bit or more is at most 32759. -/
def Obligations.BreadOperandAssembly : Prop :=
  (∀ hi lo len flags : Byte, flags.toNat < 2 →
    decode [0x05, hi, lo, len, flags] = .ok (.bread
      (if hi.toNat * 256 + lo.toNat < 32768 then ((hi.toNat * 256 + lo.toNat : Nat) : Int)
        else ((hi.toNat * 256 + lo.toNat : Nat) : Int) - 65536)
      len.toNat (flags.getLsbD 0))) ∧
  (∀ (Q : Frame) (start : Int) (n : Nat) (le : Bool), decode Q = .ok (.bread start n le) →
    -32768 ≤ start ∧ start ≤ 32767 ∧ n ≤ 255) ∧
  (∀ (start : Int) (n len : Nat), len ≤ Config.frameMax → 1 ≤ n → inBounds start n len = true →
    start ≤ 32759)

/-- Rule R60: the reserved FLAGS bits are refused, not ignored, no other operand bits are reserved, and the reserved
STATUS bits read as 0. -/
def Obligations.ReservedBitsRefused : Prop :=
  (∀ (hi lo len flags : Byte) (s : State), 2 ≤ flags.toNat →
    ∃ t, accept [0x05, hi, lo, len, flags] s = .next t ∧ Answered s t [0x85] ∧ UnitsUnchanged s t) ∧
  (∀ hi lo len flags : Byte, flags.toNat < 2 →
    ∃ start, decode [0x05, hi, lo, len, flags] = .ok (.bread start len.toNat (flags.getLsbD 0))) ∧
  (∀ s : State, ∃ t b, accept [0x06] s = .next t ∧ Answered s t [0x00, b] ∧ b.toNat < 8)

/-! ### The step and the port -/

/-- A step runs the decoded instruction: with a frame next in the host's stream that decodes to a well-formed
command, the step is that command's meaning on the state whose stream has moved past the frame (rules R18,
R40; assumption log 3). -/
def Obligations.StepRunsDecodedCommand : Prop :=
  ∀ (s : State) (Q : Frame) (rest : List HostAct) (i : Instr),
    s.stream = .command Q :: rest → decode Q = .ok i → step s = exec i { s with stream := rest }

/-- With no further act of the host the block waits, unchanged (rules R177, R202; assumption log 3). -/
def Obligations.IdleBlockWaits : Prop := ∀ s : State, s.stream = [] → step s = .next s

/-- Rule R190: reset, while idle or in the middle of a command, gives the reset state of the block, no response,
and none of the command's state writes. The two acts are the model's form of the reset input (assumption log 7). -/
def Obligations.ResetInputClearsBlock : Prop :=
  ∀ (s : State) (a : HostAct) (rest : List HostAct), s.stream = a :: rest →
    (a = .reset ∨ ∃ Q, a = .commandThenReset Q) →
    ∃ t, step s = .next t ∧ SameUnits t State.reset ∧ t.responses = s.responses ∧ t.stream = rest

/-- Every step answers a next state, and every command frame is answered by exactly one response frame
(rules R50, R201, R202). -/
def Obligations.EveryFrameIsAnswered : Prop :=
  (∀ s : State, ∃ t, step s = .next t) ∧
  (∀ (Q : Frame) (s : State), ∃ t P, accept Q s = .next t ∧ Answered s t P)

/-! ### Salting and CINIT -/

/-- CINIT with a 16-byte key, a 16-byte IV and a 6-byte salt completes: both salted values are stored, `C.valid` is
1, the answer is `OK`, and nothing else changes (rules R70, R75, R76). -/
def Obligations.CinitConstructs : Prop :=
  ∀ (key iv salt : List Byte) (s : State), key.length = 16 → iv.length = 16 → salt.length = 6 →
    ∃ t c, exec (.cinit key iv salt) s = .next t ∧ t.cipher = some c ∧
      (∀ k : Fin 16, k.val < 6 →
        c.skey[k].toNat = ((key.getD k.val 0).toNat + (salt.getD k.val 0).toNat) % 255 ∧
        c.siv[k].toNat = ((iv.getD k.val 0).toNat + (salt.getD k.val 0).toNat) % 255) ∧
      (∀ k : Fin 16, 6 ≤ k.val → c.skey[k] = key.getD k.val 0 ∧ c.siv[k] = iv.getD k.val 0) ∧
      t.reader = s.reader ∧ BufferUnchanged s t ∧ t.diag = s.diag ∧ Answered s t [0x00]

/-- CINIT with any wrong length answers `E_VALIDATION` and writes nothing (rules R75, R76 (c), R171). -/
def Obligations.CinitRefusesWrongLengths : Prop :=
  ∀ (key iv salt : List Byte) (s : State), ¬ (key.length = 16 ∧ iv.length = 16 ∧ salt.length = 6) →
    ∃ t, exec (.cinit key iv salt) s = .next t ∧ Answered s t [0x81] ∧ UnitsUnchanged s t ∧
      BufferUnchanged s t

/-- Rule R70. -/
def Obligations.SaltingModulo255 : Prop :=
  (∀ (X : Block) (S : Salt) (k : Fin 16),
    (∀ h : k.val < 6, (salt16 X S)[k].toNat = (X[k].toNat + S[k.val].toNat) % 255) ∧
    (6 ≤ k.val → (salt16 X S)[k] = X[k])) ∧
  (∀ (key iv salt : List Byte) (s t : State), key.length = 16 → iv.length = 16 → salt.length = 6 →
    exec (.cinit key iv salt) s = .next t →
    t.cipher = some { skey := salt16 (toBlock key) (toSalt salt), siv := salt16 (toBlock iv) (toSalt salt) })

/-- What the spec infers from rule R70, as its own inference (R71, (a) to (g)). -/
def Obligations.SaltingConsequences : Prop :=
  (∀ (X : Block) (S : Salt), Salted (salt16 X S)) ∧
  saltByte 0xFF 0x00 = 0x00 ∧
  saltByte 0xFE 0x01 = 0x00 ∧
  saltByte 0x80 0x80 = 0x01 ∧
  saltByte 0xFF 0xFF = 0x00 ∧
  (∀ x s : Byte, x.toNat + s.toNat < 255 → saltByte x s = x + s) ∧
  (saltByte 0x00 0xFF = 0x00 ∧ saltByte 0xFF 0xFF = 0x00 ∧ saltByte 0x00 0x00 = 0x00 ∧ saltByte 0xFF 0x00 = 0x00) ∧
  (∀ (X : Block) (S : Salt) (k : Fin 16), 6 ≤ k.val → X[k] = 0xFF#8 → (salt16 X S)[k] = 0xFF#8)

/-! ### The AES primitive -/

/-- The S-box is the inverse in GF(2^8) under the affine map of rule R123. -/
def Obligations.SboxFromFieldInverse : Prop :=
  ∀ a : Byte, ∃ b : Byte, IsGfInverse a b ∧ sbox a = sboxAffine b

/-- The round constants follow rule R125, the key expansion the recurrence of rule R126; its round keys are its words
in fours, and `RK[0] = K`. -/
def Obligations.KeyExpansionRecurrence : Prop :=
  rcon 1 = 0x01 ∧ (∀ j : Nat, 1 ≤ j → rcon (j + 1) = xtime (rcon j)) ∧
  ∀ K : Block,
    roundKey K 0 = K ∧
    (∀ (r : Nat) (k : Fin 16), (roundKey K r)[k] = (keyWord K (4 * r + k.val / 4))[k.val % 4]) ∧
    (∀ (i : Nat) (j : Fin 4), (i + 4) % 4 ≠ 0 →
      (keyWord K (i + 4))[j] = (keyWord K i)[j] ^^^ (keyWord K (i + 3))[j]) ∧
    (∀ i : Nat, (i + 4) % 4 = 0 →
      (keyWord K (i + 4))[0] = (keyWord K i)[0] ^^^ (sbox (keyWord K (i + 3))[1] ^^^ rcon ((i + 4) / 4)) ∧
      (keyWord K (i + 4))[1] = (keyWord K i)[1] ^^^ sbox (keyWord K (i + 3))[2] ∧
      (keyWord K (i + 4))[2] = (keyWord K i)[2] ^^^ sbox (keyWord K (i + 3))[3] ∧
      (keyWord K (i + 4))[3] = (keyWord K i)[3] ^^^ sbox (keyWord K (i + 3))[0])

/-- `InvMixColumns` undoes `MixColumns` and the other way round (rules R130, R131). -/
def Obligations.MixColumnsInverse : Prop :=
  ∀ s : Block, invMixColumns (mixColumns s) = s ∧ mixColumns (invMixColumns s) = s

/-- For a fixed key the cipher is a permutation of the blocks and `AES128_Decrypt` is its inverse (rule R133). -/
def Obligations.AesDecryptInvertsEncrypt : Prop :=
  ∀ K X : Block, aesDecrypt K (aesEncrypt K X) = X ∧ aesEncrypt K (aesDecrypt K X) = X

/-- The known answers of rule R134, with the states of round 1. -/
def Obligations.AesKnownAnswers : Prop :=
  let K : Block := #v[0x00, 0x01, 0x02, 0x03, 0x04, 0x05, 0x06, 0x07, 0x08, 0x09, 0x0a, 0x0b, 0x0c, 0x0d, 0x0e, 0x0f]
  let P : Block := #v[0x00, 0x11, 0x22, 0x33, 0x44, 0x55, 0x66, 0x77, 0x88, 0x99, 0xaa, 0xbb, 0xcc, 0xdd, 0xee, 0xff]
  let s0 := encryptState K P 0
  let K' : Block := #v[0x2b, 0x7e, 0x15, 0x16, 0x28, 0xae, 0xd2, 0xa6, 0xab, 0xf7, 0x15, 0x88, 0x09, 0xcf, 0x4f, 0x3c]
  let P' : Block := #v[0x32, 0x43, 0xf6, 0xa8, 0x88, 0x5a, 0x30, 0x8d, 0x31, 0x31, 0x98, 0xa2, 0xe0, 0x37, 0x07, 0x34]
  s0 = #v[0x00, 0x10, 0x20, 0x30, 0x40, 0x50, 0x60, 0x70, 0x80, 0x90, 0xa0, 0xb0, 0xc0, 0xd0, 0xe0, 0xf0] ∧
  subBytes s0 = #v[0x63, 0xca, 0xb7, 0x04, 0x09, 0x53, 0xd0, 0x51, 0xcd, 0x60, 0xe0, 0xe7, 0xba, 0x70, 0xe1, 0x8c] ∧
  shiftRows (subBytes s0) =
    #v[0x63, 0x53, 0xe0, 0x8c, 0x09, 0x60, 0xe1, 0x04, 0xcd, 0x70, 0xb7, 0x51, 0xba, 0xca, 0xd0, 0xe7] ∧
  mixColumns (shiftRows (subBytes s0)) =
    #v[0x5f, 0x72, 0x64, 0x15, 0x57, 0xf5, 0xbc, 0x92, 0xf7, 0xbe, 0x3b, 0x29, 0x1d, 0xb9, 0xf9, 0x1a] ∧
  encryptState K P 1 =
    #v[0x89, 0xd8, 0x10, 0xe8, 0x85, 0x5a, 0xce, 0x68, 0x2d, 0x18, 0x43, 0xd8, 0xcb, 0x12, 0x8f, 0xe4] ∧
  aesEncrypt K P =
    #v[0x69, 0xc4, 0xe0, 0xd8, 0x6a, 0x7b, 0x04, 0x30, 0xd8, 0xcd, 0xb7, 0x80, 0x70, 0xb4, 0xc5, 0x5a] ∧
  aesEncrypt K' P' =
    #v[0x39, 0x25, 0x84, 0x1d, 0x02, 0xdc, 0x09, 0xfb, 0xdc, 0x11, 0x85, 0x97, 0x19, 0x6a, 0x0b, 0x32]

/-- Rule R73: one-block CBC decryption, and that each of the two undoes the other. -/
def Obligations.OneBlockCbcInverse : Prop :=
  (∀ K IV C : Block, cbc1Decrypt K IV C = xorBlock (aesDecrypt K C) IV) ∧
  (∀ K IV P : Block, cbc1Decrypt K IV (cbc1Encrypt K IV P) = P) ∧
  (∀ K IV C : Block, cbc1Encrypt K IV (cbc1Decrypt K IV C) = C)

/-! ### CENC and CDEC -/

/-- CENC of 16 to `FRAME_MAX` bytes on a constructed cipher completes: it answers `OK` and the two-pass transform,
and changes none of the block's state (rules R77, R78). -/
def Obligations.CencCompletes : Prop :=
  ∀ (data : List Byte) (s : State) (c : CipherUnit), s.cipher = some c → 16 ≤ data.length →
    data.length ≤ Config.frameMax →
    ∃ t, exec (.cenc data) s = .next t ∧ Answered s t (0x00 :: encryptFrame c.skey c.siv data) ∧
      UnitsUnchanged s t ∧ BufferUnchanged s t

/-- CDEC of 16 to `FRAME_MAX` bytes on a constructed cipher completes likewise (rules R80, R81). -/
def Obligations.CdecCompletes : Prop :=
  ∀ (data : List Byte) (s : State) (c : CipherUnit), s.cipher = some c → 16 ≤ data.length →
    data.length ≤ Config.frameMax →
    ∃ t, exec (.cdec data) s = .next t ∧ Answered s t (0x00 :: decryptFrame c.skey c.siv data) ∧
      UnitsUnchanged s t ∧ BufferUnchanged s t

/-- Where CENC and CDEC fail, in the order of rules R77 and R80, with no state written. -/
def Obligations.CipherCommandsRefuse : Prop :=
  ∀ (data : List Byte) (s : State) (i : Instr), (i = .cenc data ∨ i = .cdec data) →
    (s.cipher = none →
      ∃ t, exec i s = .next t ∧ Answered s t [0x83] ∧ UnitsUnchanged s t ∧ BufferUnchanged s t) ∧
    (s.cipher ≠ none → data.length < 16 →
      ∃ t, exec i s = .next t ∧ Answered s t [0x81] ∧ UnitsUnchanged s t ∧ BufferUnchanged s t) ∧
    (s.cipher ≠ none → Config.frameMax < data.length →
      ∃ t, exec i s = .next t ∧ Answered s t [0x84] ∧ UnitsUnchanged s t ∧ BufferUnchanged s t)

/-- What the two passes of rule R78 give at each length: the spec's own inference from that rule (R79, (a) to (d)). -/
def Obligations.EncryptByLength : Prop :=
  ∀ (K IV : Block) (P : List Byte),
    let n := P.length
    let E1 := cbc1Encrypt K IV (blockAt P 0)
    (n = 16 → encryptFrame K IV P = E1.toList) ∧
    (16 < n → n < 32 →
      encryptFrame K IV P = E1.toList.take (n - 16) ++
        (cbc1Encrypt K IV (toBlock (E1.toList.drop (n - 16) ++ P.drop 16))).toList) ∧
    (n = 32 → encryptFrame K IV P = E1.toList ++ (cbc1Encrypt K IV (blockAt P 16)).toList) ∧
    (32 < n →
      encryptFrame K IV P = E1.toList ++ (P.drop 16).take (n - 32) ++
        (cbc1Encrypt K IV (blockAt P (n - 16))).toList)

/-- Rule R81 in the same terms: the tail block first, then the leading block, at each length. -/
def Obligations.DecryptByLength : Prop :=
  ∀ (K IV : Block) (C : List Byte),
    let n := C.length
    let T := cbc1Decrypt K IV (blockAt C (n - 16))
    (n = 16 → decryptFrame K IV C = T.toList) ∧
    (16 < n → n < 32 →
      decryptFrame K IV C =
        (cbc1Decrypt K IV (toBlock (C.take (n - 16) ++ T.toList.take (32 - n)))).toList ++
          T.toList.drop (32 - n)) ∧
    (32 ≤ n →
      decryptFrame K IV C = (cbc1Decrypt K IV (blockAt C 0)).toList ++ (C.drop 16).take (n - 32) ++ T.toList)

/-- Nothing is appended or stripped; an `OK` answer of CENC or CDEC carries as many bytes as the data: the spec's own
inference from rules R78 and R81 (R74). -/
def Obligations.NoPadding : Prop :=
  (∀ (K IV : Block) (F : List Byte), 16 ≤ F.length →
    (encryptFrame K IV F).length = F.length ∧ (decryptFrame K IV F).length = F.length) ∧
  (∀ (data payload : List Byte) (s t : State) (i : Instr), (i = .cenc data ∨ i = .cdec data) →
    exec i s = .next t → Answered s t (0x00 :: payload) → payload.length = data.length)

/-- Rule R83: both compositions of the two transforms give the frame back, at every length from 16, and at the
command level CDEC answers what CENC was given. -/
def Obligations.CipherRoundTrip : Prop :=
  (∀ (K IV : Block) (F : List Byte), 16 ≤ F.length →
    decryptFrame K IV (encryptFrame K IV F) = F ∧ encryptFrame K IV (decryptFrame K IV F) = F) ∧
  (∀ (x y : List Byte) (s t : State), s.cValid = true → 16 ≤ x.length → x.length ≤ Config.frameMax →
    exec (.cenc x) s = .next t → Answered s t (0x00 :: y) →
    ∃ u, exec (.cdec y) t = .next u ∧ Answered t u (0x00 :: x))

/-- The spec's own inference from rules R12 and R78 (R84): the answer of CENC and CDEC depends on the salted key, the salted IV and the data alone, and equal
leading blocks give equal leading ciphertext as far as the tail pass leaves it. -/
def Obligations.TransformDeterministic : Prop :=
  (∀ (data : List Byte) (s t : State) (i : Instr), (i = .cenc data ∨ i = .cdec data) → s.cipher = t.cipher →
    ∃ s' t' P, exec i s = .next s' ∧ exec i t = .next t' ∧ Answered s s' P ∧ Answered t t' P ∧
      s'.cipher = s.cipher ∧ t'.cipher = t.cipher) ∧
  (∀ (K IV : Block) (F G : List Byte), F.length = G.length → 16 ≤ F.length → F.take 16 = G.take 16 →
    ((F.length = 16 ∨ 32 ≤ F.length) → (encryptFrame K IV F).take 16 = (encryptFrame K IV G).take 16) ∧
    (16 < F.length → F.length < 32 →
      (encryptFrame K IV F).take (F.length - 16) = (encryptFrame K IV G).take (F.length - 16)))

/-- Rule R85: the public CBC vector, through CINIT and CENC. -/
def Obligations.NistVectorThroughCommands : Prop :=
  let key : List Byte := [0x2b, 0x7e, 0x15, 0x16, 0x28, 0xae, 0xd2, 0xa6, 0xab, 0xf7, 0x15, 0x88, 0x09, 0xcf, 0x4f, 0x3c]
  let iv : List Byte := [0x00, 0x01, 0x02, 0x03, 0x04, 0x05, 0x06, 0x07, 0x08, 0x09, 0x0a, 0x0b, 0x0c, 0x0d, 0x0e, 0x0f]
  let salt : List Byte := [0x00, 0x00, 0x00, 0x00, 0x00, 0x00]
  ∀ s : State, ∃ t u, exec (.cinit key iv salt) s = .next t ∧
    t.cipher = some { skey := toBlock key, siv := toBlock iv } ∧
    exec (.cenc [0x6b, 0xc1, 0xbe, 0xe2, 0x2e, 0x40, 0x9f, 0x96, 0xe9, 0x3d, 0x7e, 0x11, 0x73, 0x93, 0x17, 0x2a]) t
      = .next u ∧
    Answered t u
      [0x00, 0x76, 0x49, 0xab, 0xac, 0x81, 0x19, 0xb2, 0x46, 0xce, 0xe9, 0x8e, 0x9b, 0x12, 0xe9, 0x19, 0x7d]

/-! ### BLOAD and BREAD -/

/-- Rule R90: BLOAD replaces the buffer, its length and the valid bit, or refuses a buffer over `FRAME_MAX` with
nothing written; its worked example. -/
def Obligations.BloadLoadsOrRefuses : Prop :=
  (∀ (data : List Byte) (s : State), data.length ≤ Config.frameMax →
    ∃ t, exec (.bload data) s = .next t ∧ t.reader = some { buf := data } ∧ t.bValid = true ∧
      (∀ k, t.bufByte k = data[k]?) ∧ t.cipher = s.cipher ∧ t.diag = s.diag ∧ Answered s t [0x00]) ∧
  (∀ (data : List Byte) (s : State), Config.frameMax < data.length →
    ∃ t, exec (.bload data) s = .next t ∧ Answered s t [0x84] ∧ UnitsUnchanged s t ∧ BufferUnchanged s t) ∧
  (∀ s : State,
    let X : List Byte := [0xA5, 0x3C, 0x0F, 0xF0, 0x81, 0x7E, 0xC3, 0x5A, 0x96, 0x69,
      0x12, 0x34, 0x56, 0x78, 0x9A, 0xBC, 0xDE, 0xF0, 0x01, 0xFF]
    ∃ t, accept (0x04 :: X) s = .next t ∧ t.reader = some { buf := X } ∧ X.length = 20 ∧ Answered s t [0x00])

/-- Rule R8: the value of a bit field is the sum of its bits, the first the most significant, and a bit address
counts from the most significant bit of byte 0. -/
def Obligations.UbitsIsBitSum : Prop :=
  (∀ (X : List Byte) (k : Nat) (h : k / 8 < X.length), bitAt X k = X[k / 8].getLsbD (7 - k % 8)) ∧
  (∀ (X : List Byte) (s n : Nat), (bits X s n).length = n ∧
    ∀ j, j < n → (bits X s n)[j]? = some (bitAt X (s + j))) ∧
  (∀ (X : List Byte) (s n : Nat),
    ubits X s n = ∑ j ∈ Finset.range n, (bitAt X (s + j)).toNat * 2 ^ (n - 1 - j))

/-- Rule R97: a BREAD of 1 to 8 bits in bounds completes with the value of the field, zero-extended, and changes
none of the block's state. -/
def Obligations.BreadNarrowCompletes : Prop :=
  ∀ (s : State) (r : ReaderUnit) (start n : Nat) (le : Bool), s.reader = some r → 1 ≤ n → n ≤ 8 →
    start + n ≤ 8 * r.len →
    ∃ t v, exec (.bread start n le) s = .next t ∧
      v = ∑ j ∈ Finset.range n, (bitAt r.buf (start + j)).toNat * 2 ^ (n - 1 - j) ∧ v < 2 ^ n ∧
      Answered s t [0x00, 0x00, 0x00, 0x00, BitVec.ofNat 8 v] ∧ UnitsUnchanged s t ∧ BufferUnchanged s t

/-- Rule R33: a BREAD of 16 or 32 bits in bounds completes with its 8-bit groups in the byte order asked for, and
changes none of the block's state. -/
def Obligations.BreadWideCompletes : Prop :=
  ∀ (s : State) (r : ReaderUnit) (start : Nat) (le : Bool), s.reader = some r →
    let g := fun j => BitVec.ofNat 8 (ubits r.buf (start + 8 * j) 8)
    (start + 16 ≤ 8 * r.len →
      ∃ t, exec (.bread start 16 le) s = .next t ∧
        Answered s t (0x00 :: 0x00 :: 0x00 :: (if le then [g 1, g 0] else [g 0, g 1])) ∧
        UnitsUnchanged s t ∧ BufferUnchanged s t) ∧
    (start + 32 ≤ 8 * r.len →
      ∃ t, exec (.bread start 32 le) s = .next t ∧
        Answered s t (0x00 :: (if le then [g 3, g 2, g 1, g 0] else [g 0, g 1, g 2, g 3])) ∧
        UnitsUnchanged s t ∧ BufferUnchanged s t)

/-- Rule R98's equivalent forms: big-endian is the whole field, little-endian its byte swap. -/
def Obligations.WideValueForms : Prop :=
  ∀ (X : List Byte) (s : Nat),
    (∀ n, n = 16 ∨ n = 32 → fieldValue X s n false = ubits X s n) ∧
    fieldValue X s 16 true = (ubits X s 16 % 256) * 256 + ubits X s 16 / 256 ∧
    fieldValue X s 32 true =
      (ubits X s 32 % 256) * 16777216 + (ubits X s 32 / 256 % 256) * 65536 +
        (ubits X s 32 / 65536 % 256) * 256 + ubits X s 32 / 16777216

/-- The spec's own inference from rules R31 and R33 (R34): at an unaligned start a group is the low bits of one byte followed by the high bits of the next, and
the little-endian read is the byte swap of the big-endian one. -/
def Obligations.UnalignedGroups : Prop :=
  (∀ (X : List Byte) (s j : Nat), s % 8 ≠ 0 → s / 8 + j + 1 < X.length →
    ubits X (s + 8 * j) 8 =
      ((X.getD (s / 8 + j) 0).toNat % 2 ^ (8 - s % 8)) * 2 ^ (s % 8) +
        (X.getD (s / 8 + j + 1) 0).toNat / 2 ^ (8 - s % 8)) ∧
  (∀ (X : List Byte) (s : Nat),
    fieldValue X s 16 true = (fieldValue X s 16 false % 256) * 256 + fieldValue X s 16 false / 256)

/-- Rule R96: an out-of-bounds read of a legal length answers `OK_OOB` with value 0, sets `DIAG` and changes nothing
else. -/
def Obligations.BreadOutOfBounds : Prop :=
  ∀ (s : State) (r : ReaderUnit) (start : Int) (n : Nat) (le : Bool), s.reader = some r →
    ((1 ≤ n ∧ n ≤ 8) ∨ n = 16 ∨ n = 32) → (start < 0 ∨ 8 * (r.len : Int) < start + (n : Int)) →
    ∃ t, exec (.bread start n le) s = .next t ∧ Answered s t [0x01, 0x00, 0x00, 0x00, 0x00] ∧
      t.diag = true ∧ t.cipher = s.cipher ∧ t.reader = s.reader ∧ BufferUnchanged s t

/-- Rules R94 and R95: every other bit length, 0 included, fails with `E_INVALID_ARG` and writes nothing; before any
BLOAD every BREAD answers `E_NOT_READY` (rule R93). -/
def Obligations.BreadRefusals : Prop :=
  (∀ (s : State) (r : ReaderUnit) (start : Int) (n : Nat) (le : Bool), s.reader = some r →
    (n = 0 ∨ (9 ≤ n ∧ n ≤ 15) ∨ (17 ≤ n ∧ n ≤ 31) ∨ (33 ≤ n ∧ n ≤ 255)) →
    ∃ t, exec (.bread start n le) s = .next t ∧ Answered s t [0x82] ∧ UnitsUnchanged s t ∧
      BufferUnchanged s t) ∧
  (∀ (s : State) (start : Int) (n : Nat) (le : Bool), s.reader = none →
    ∃ t, exec (.bread start n le) s = .next t ∧ Answered s t [0x83] ∧ UnitsUnchanged s t ∧
      BufferUnchanged s t)

/-- The corners of the bounds test: the spec's own inference (R101, and R91 (a) for the empty buffer) from rules R39 and
R92. -/
def Obligations.BoundsCorners : Prop :=
  ∀ n len : Nat, ((1 ≤ n ∧ n ≤ 8) ∨ n = 16 ∨ n = 32) →
    (n ≤ 8 * len → inBounds (8 * len - n) n len = true) ∧
    inBounds (8 * len - n + 1) n len = false ∧
    inBounds (8 * len) n len = false ∧
    inBounds (-1) n len = false ∧
    (len ≤ Config.frameMax → inBounds 32767 n len = false) ∧
    (∀ start : Int, inBounds start 16 1 = false ∧ inBounds start 32 3 = false ∧ inBounds start n 0 = false)

/-- The spec's own inference from rule R92 (R100): BREAD changes at most `DIAG`, from 0 to 1, and repeating it gives the same answer. -/
def Obligations.BreadIsPureRead : Prop :=
  ∀ (s t : State) (start : Int) (n : Nat) (le : Bool), exec (.bread start n le) s = .next t →
    t.cipher = s.cipher ∧ t.reader = s.reader ∧ BufferUnchanged s t ∧ (s.diag = true → t.diag = true) ∧
    ∃ P u, Answered s t P ∧ exec (.bread start n le) t = .next u ∧ Answered t u P

/-- Rule R99: for 1 to 8 bits the byte order is ignored. -/
def Obligations.NarrowReadIgnoresByteOrder : Prop :=
  ∀ (s : State) (start : Int) (n : Nat), 1 ≤ n → n ≤ 8 →
    exec (.bread start n true) s = exec (.bread start n false) s

/-! ### STAT, RST and reset -/

/-- Rule R20 through STAT (rule R110): the fields of STATUS, that it reads 0 after reset, and that STAT changes
nothing. -/
def Obligations.StatReadsStatus : Prop :=
  State.reset.statusByte = 0x00 ∧
  ∀ s : State, ∃ t b, exec .stat s = .next t ∧ Answered s t [0x00, b] ∧
    b.getLsbD 0 = s.cValid ∧ b.getLsbD 1 = s.bValid ∧ b.getLsbD 2 = s.diag ∧
    (∀ k, 3 ≤ k → b.getLsbD k = false) ∧ UnitsUnchanged s t ∧ BufferUnchanged s t

/-- RST returns to the reset state and answers `OK`, the reset input to the same state without an answer; the cipher
and the reader then answer `E_NOT_READY`, and STAT answers 00 (rules R111, R192). -/
def Obligations.RstReturnsToReset : Prop :=
  ∀ s : State, ∃ t, exec .rst s = .next t ∧ SameUnits t State.reset ∧ Answered s t [0x00] ∧
    (∃ u, hostAct .reset s = .next u ∧ SameUnits u t ∧ u.responses = s.responses) ∧
    (∀ data, ∃ u, exec (.cenc data) t = .next u ∧ Answered t u [0x83]) ∧
    (∀ data, ∃ u, exec (.cdec data) t = .next u ∧ Answered t u [0x83]) ∧
    (∀ start n le, ∃ u, exec (.bread start n le) t = .next u ∧ Answered t u [0x83]) ∧
    (∃ u, exec .stat t = .next u ∧ Answered t u [0x00, 0x00])

/-- What reset leaves (rules R24, R191): the valid bits and `DIAG` are 0 and STATUS reads 0x00. That `C.*` and `B.*`
hold no value then is how rules R11 and R191 ask it to be modelled (assumption log 2). -/
def Obligations.ResetValues : Prop :=
  State.reset.cValid = false ∧ State.reset.bValid = false ∧ State.reset.diag = false ∧
    State.reset.cipher = none ∧ State.reset.reader = none ∧ State.reset.statusByte = 0x00

/-! ### The whole machine -/

/-- The invariant holds at reset. -/
def Obligations.InvAtReset : Prop := BlockInv State.reset

/-- Every step keeps the invariant: salted bytes are never 0xFF, the buffer fits `FRAME_MAX`, every response is well
formed (rules R13, R58, R71, R170). -/
def Obligations.StepKeepsInv : Prop := ∀ s t : State, BlockInv s → step s = .next t → BlockInv t

/-- Rule R176: one status per command frame, the first in the rule's order whose condition holds. -/
def Obligations.StatusPriority : Prop :=
  ∀ (Q : Frame) (s : State), ∃ t P, accept Q s = .next t ∧ Answered s t P ∧
    statusOf P = some (prioritisedStatus Q s).code

/-- A command answered with bit 7 set has written no state (rules R170, R177). -/
def Obligations.FailedCommandWritesNothing : Prop :=
  ∀ (Q : Frame) (s t : State) (P : Frame), accept Q s = .next t → Answered s t P → failedResponse P = true →
    UnitsUnchanged s t ∧ BufferUnchanged s t ∧ P.length = 1

/-- No failure is sticky: after an error response the next command is performed as if the failed one had not been
sent (rule R178). -/
def Obligations.FailureIsNotSticky : Prop :=
  ∀ (Q Q' : Frame) (s t : State) (P : Frame), accept Q s = .next t → Answered s t P → failedResponse P = true →
    ∃ u v P', accept Q' t = .next u ∧ accept Q' s = .next v ∧ Answered t u P' ∧ Answered s v P' ∧
      SameUnits u v

/-- Rule R12: only a successful CINIT, RST and reset write the cipher unit; a failed CINIT writes nothing, a
successful one replaces both values as a whole, and CENC repeated gives the same answer. -/
def Obligations.CipherImmutable : Prop :=
  (∀ (i : Instr) (s t : State), exec i s = .next t → t.cipher ≠ s.cipher →
    i = .rst ∨ ∃ key iv salt, i = .cinit key iv salt ∧ key.length = 16 ∧ iv.length = 16 ∧ salt.length = 6 ∧
      Answered s t [0x00]) ∧
  (∀ (key iv salt : List Byte) (s t : State) (P : Frame), exec (.cinit key iv salt) s = .next t →
    Answered s t P → failedResponse P = true → t.cipher = s.cipher) ∧
  (∀ (key iv salt : List Byte) (s s' t t' : State), key.length = 16 → iv.length = 16 → salt.length = 6 →
    exec (.cinit key iv salt) s = .next t → exec (.cinit key iv salt) s' = .next t' → t.cipher = t'.cipher) ∧
  (∀ (data : List Byte) (s t u : State) (P P' : Frame), exec (.cenc data) s = .next t →
    exec (.cenc data) t = .next u → Answered s t P → Answered t u P' → P = P') ∧
  (∀ s t : State, step s = .next t → t.cipher ≠ s.cipher →
    ∃ a rest, s.stream = a :: rest ∧
      (a = .reset ∨ (∃ Q, a = .commandThenReset Q) ∨
       ∃ Q, a = .command Q ∧ (decode Q = .ok .rst ∨ ∃ key iv salt, decode Q = .ok (.cinit key iv salt) ∧
         key.length = 16 ∧ iv.length = 16 ∧ salt.length = 6)))

/-- The reader unit is written by a successful BLOAD, by RST and by reset only (rules R13, R14). -/
def Obligations.ReaderWrittenOnlyByBload : Prop :=
  (∀ (i : Instr) (s t : State), exec i s = .next t → t.reader ≠ s.reader →
    i = .rst ∨ ∃ data, i = .bload data ∧ data.length ≤ Config.frameMax ∧ Answered s t [0x00]) ∧
  (∀ s t : State, step s = .next t → t.reader ≠ s.reader →
    ∃ a rest, s.stream = a :: rest ∧
      (a = .reset ∨ (∃ Q, a = .commandThenReset Q) ∨
       ∃ Q, a = .command Q ∧ (decode Q = .ok .rst ∨ ∃ data, decode Q = .ok (.bload data) ∧
         data.length ≤ Config.frameMax)))

/-- Rule R16: `DIAG` is set by every out-of-bounds BREAD and only together with `OK_OOB`, cleared only by RST among
the commands and by the reset input, and it changes no answer but STAT's. -/
def Obligations.DiagIsSticky : Prop :=
  (∀ (i : Instr) (s t : State), exec i s = .next t → s.diag = true → t.diag = false → i = .rst) ∧
  (∀ (i : Instr) (s t : State), exec i s = .next t → s.diag = false → t.diag = true →
    ∃ start n le, i = .bread start n le ∧ Answered s t [0x01, 0x00, 0x00, 0x00, 0x00]) ∧
  (∀ (s : State) (r : ReaderUnit) (start : Int) (n : Nat) (le : Bool), s.reader = some r →
    ((1 ≤ n ∧ n ≤ 8) ∨ n = 16 ∨ n = 32) → (start < 0 ∨ 8 * (r.len : Int) < start + (n : Int)) →
    ∃ t, exec (.bread start n le) s = .next t ∧ t.diag = true ∧
      Answered s t [0x01, 0x00, 0x00, 0x00, 0x00]) ∧
  (∀ s : State, ∃ t, hostAct .reset s = .next t ∧ t.diag = false) ∧
  (∀ s : State, ∃ t, exec .rst s = .next t ∧ t.diag = false) ∧
  (∀ s t : State, step s = .next t → s.diag = true → t.diag = false →
    ∃ a rest, s.stream = a :: rest ∧
      (a = .reset ∨ (∃ Q, a = .commandThenReset Q) ∨ ∃ Q, a = .command Q ∧ decode Q = .ok .rst)) ∧
  (∀ (i : Instr) (s t : State) (b : Bool), i ≠ .stat → exec i s = .next t →
    ∃ u, exec i { s with diag := b } = .next u ∧ u.responses = t.responses ∧ u.cipher = t.cipher ∧
      u.reader = t.reader)

/-- Rule R15: the units share no state. The cipher commands neither read nor write the reader unit, the reader
commands neither read nor write the cipher unit. -/
def Obligations.UnitsAreIndependent : Prop :=
  (∀ (i : Instr) (s t : State) (r : Option ReaderUnit), exec i s = .next t →
    ((∃ key iv salt, i = .cinit key iv salt) ∨ (∃ d, i = .cenc d) ∨ (∃ d, i = .cdec d)) →
    t.reader = s.reader ∧ exec i { s with reader := r } = .next { t with reader := r }) ∧
  (∀ (i : Instr) (s t : State) (c : Option CipherUnit), exec i s = .next t →
    ((∃ d, i = .bload d) ∨ (∃ start n le, i = .bread start n le)) →
    t.cipher = s.cipher ∧ exec i { s with cipher := c } = .next { t with cipher := c })

/-- No command but CENC and CDEC learns anything of the key: two states that differ only in the contents of the
cipher unit give the same answers to every other command and still differ only there (rule R112). -/
def Obligations.KeyIsNotReadOut : Prop :=
  ∀ (Q : Frame) (s t : State), SameButKey s t →
    (∀ d, decode Q ≠ .ok (.cenc d) ∧ decode Q ≠ .ok (.cdec d)) →
    ∃ s' t', accept Q s = .next s' ∧ accept Q t = .next t' ∧ SameButKey s' t'

/-- Rule R58: every command frame is answered by exactly one response frame, an error status byte alone or the
payload of its command and status. -/
def Obligations.ResponseByCommand : Prop :=
  (∀ (Q : Frame) (s : State), ∃ t P, accept Q s = .next t ∧ Answered s t P ∧ P ≠ []) ∧
  (∀ (Q : Frame) (s : State) (e : DecodeError), decode Q = .error e →
    ∃ t b, accept Q s = .next t ∧ Answered s t [b] ∧ (b = 0x85 ∨ b = 0x86)) ∧
  (∀ (i : Instr) (s : State), ∃ t P, exec i s = .next t ∧ Answered s t P ∧
    ((∃ e : Byte, P = [e] ∧ (e = 0x81 ∨ e = 0x82 ∨ e = 0x83 ∨ e = 0x84)) ∨
     match i with
     | .cinit _ _ _ => P = [0x00]
     | .cenc data => ∃ c, s.cipher = some c ∧ P = 0x00 :: encryptFrame c.skey c.siv data ∧ P.length = 1 + data.length
     | .cdec data => ∃ c, s.cipher = some c ∧ P = 0x00 :: decryptFrame c.skey c.siv data ∧ P.length = 1 + data.length
     | .bload _ => P = [0x00]
     | .bread start n le =>
       (∃ (r : ReaderUnit) (v : Value), s.reader = some r ∧
         v.toNat = fieldValue r.buf start.toNat n le ∧
         P = [0x00, v.extractLsb' 24 8, v.extractLsb' 16 8, v.extractLsb' 8 8, v.extractLsb' 0 8]) ∨
       P = [0x01, 0x00, 0x00, 0x00, 0x00]
     | .stat => P = [0x00, s.statusByte]
     | .rst => P = [0x00]))

/-! ### The spec's text of commands, and the host's use of the block -/

/-- Every line of the spec's syntax that may be written encodes exactly one command frame, which decodes to the
command the line names, and the same holds of the text it is read from; which lines may be written: the operands fit
their fields and a read of 16 or 32 bits says its byte order (rule R64); one line of text for each command. How text is
read where the rule leaves it open is the model's choice (assumption log 9). -/
def Obligations.AssembledLineDecodes : Prop :=
  (∀ l : Asm.Line, l.legal = true → ∃ Q, Asm.assemble l = some Q ∧ decode Q = .ok l.toInstr) ∧
  (∀ l : Asm.Line, l.legal = false → Asm.assemble l = none) ∧
  (∀ l : Asm.Line, l.legal = true ↔
    l.toInstr.wellFormed = true ∧ ∀ start n, l = .bread start n none → n ≠ 16 ∧ n ≠ 32) ∧
  (∀ (text : List Char) (l : Asm.Line), Asm.parseLine text = some l → l.legal = true →
    ∃ Q, Asm.assembleText text = some Q ∧ decode Q = .ok l.toInstr) ∧
  (Asm.parseLine "CINIT key=00 01, iv=0A, salt=ff".toList = some (.cinit [0x00, 0x01] [0x0A] [0xFF]) ∧
    Asm.parseLine "CENC 0900".toList = some (.cenc [0x09, 0x00]) ∧
    Asm.parseLine "CDEC e570c6   # wire".toList = some (.cdec [0xE5, 0x70, 0xC6]) ∧
    Asm.parseLine "BLOAD".toList = some (.bload []) ∧
    Asm.parseLine "BREAD -8, 0x10, LE".toList = some (.bread (-8) 16 (some .le)) ∧
    Asm.parseLine "BREAD 0, 4".toList = some (.bread 0 4 none) ∧
    Asm.parseLine "STAT".toList = some .stat ∧ Asm.parseLine "RST".toList = some .rst) ∧
  (∀ (start : Int) (n : Nat), n = 16 ∨ n = 32 → Asm.assemble (.bread start n none) = none) ∧
  (∀ (start : Int) (n : Nat) (o : Asm.ByteOrder) (s : State), n ≠ 16 → n ≠ 32 →
    exec (Asm.Line.bread start n (some o)).toInstr s = exec (Asm.Line.bread start n none).toInstr s)

/-- Every field the Gen2 decoder reads lies in a 20-byte frame and no field passes bit 158; in a 16-byte frame the
last two `elapsed` fields do not. This is the spec's own inference (R155) from rules R143 to R150 and R96; host
context, assumption log 10. -/
def Obligations.GenTwoRequestsFit : Prop :=
  (∀ q ∈ Gen2.requests, inBounds q.1 q.2 20 = true ∧ q.1 + q.2 ≤ 159) ∧
  inBounds 127 16 16 = false ∧ inBounds 143 16 16 = false

/-- The last element of each vector makes the sums of rule R147, and an orientation element stays in its domain
(host context, assumption log 10). -/
def Obligations.DerivedElementsMeetSums : Prop :=
  (∀ xs : List Nat, (xs.sum : Int) + Gen2.deriveToSum 28 xs = 28) ∧
  (∀ xs : List Nat, (xs.sum : Int) + Gen2.deriveToSum 66 xs = 66) ∧
  (∀ xs : List Nat, (xs.sum + Gen2.deriveMod 3 xs) % 3 = 0 ∧ Gen2.deriveMod 3 xs < 3) ∧
  (∀ xs : List Nat, (xs.sum + Gen2.deriveMod 2 xs) % 2 = 0 ∧ Gen2.deriveMod 2 xs < 2)

/-- Whatever the lookup tables, the solved cube's vectors give the solved facelet string (rules R148, R159; host
context, assumption log 10). -/
def Obligations.SolvedCubeReconstructs : Prop :=
  ∀ t : Gen2.FaceletTables,
    Gen2.reconstruct t
      { cp := [0, 1, 2, 3, 4, 5, 6, 7]
        co := [0, 0, 0, 0, 0, 0, 0, 0]
        ep := [0, 1, 2, 3, 4, 5, 6, 7, 8, 9, 10, 11]
        eo := [0, 0, 0, 0, 0, 0, 0, 0, 0, 0, 0, 0] } =
      List.replicate 9 'U' ++ List.replicate 9 'R' ++ List.replicate 9 'F' ++ List.replicate 9 'D' ++
        List.replicate 9 'L' ++ List.replicate 9 'B'
end

