-- ==== Sys2Proof/Laws/Aes.lean ====
section
/-! SUPPORT. The small laws of the AES round functions: bytes of a column map, the S-boxes against each other,
`xtime` as a linear map. -/

namespace Sys2Proof.Machine

/-- Two blocks are equal when they agree in every row of every column (rule R120). -/
theorem block_ext_columns {a b : Block}
    (h : ∀ (c k : Nat) (_ : c < 4) (_ : k < 4), a[4 * c + k] = b[4 * c + k]) : a = b := by
  apply Vector.ext
  intro i hi
  have hik := h (i / 4) (i % 4) (by omega) (by omega)
  have e : 4 * (i / 4) + i % 4 = i := by omega
  simpa [e] using hik

/-- Row `k` of column `c` after a column map (rules R130, R131). -/
theorem onColumns_get (f : Byte → Byte → Byte → Byte → KeyWord) (s : Block) (c k : Nat) (hc : c < 4)
    (hk : k < 4) :
    (onColumns f s)[4 * c + k] = (f s[4 * c] s[4 * c + 1] s[4 * c + 2] s[4 * c + 3])[k] := by
  simp only [onColumns, Vector.getElem_ofFn]
  have h1 : (4 * c + k) / 4 = c := by omega
  have h2 : (4 * c + k) % 4 = k := by omega
  simp only [h1, h2]

/-- `INVSBOX` and `SBOX` are inverse permutations (rule R124). -/
theorem invSbox_sbox : ∀ a : Byte, invSbox (sbox a) = a := by decide +kernel

theorem sbox_invSbox : ∀ a : Byte, sbox (invSbox a) = a := by decide +kernel

/-- `xtime` bit by bit: a shift and a conditional reduction (rule R122). -/
theorem xtime_eq : ∀ a : Byte, xtime a = (a <<< 1) ^^^ (if a.msb then 0x1b else 0) := by decide +kernel

/-- `xtime` is linear over `⊕` (rule R122). -/
theorem xtime_xor (a b : Byte) : xtime (a ^^^ b) = xtime a ^^^ xtime b := by
  have hr : ∀ p q : Bool, (if (p ^^ q) = true then (0x1b : Byte) else 0) =
      (if p = true then 0x1b else 0) ^^^ (if q = true then 0x1b else 0) := by decide
  rw [xtime_eq, xtime_eq, xtime_eq, BitVec.shiftLeft_xor_distrib, BitVec.msb_xor, hr]
  ac_rfl

@[simp] theorem xorBlock_get (a b : Block) (i : Nat) (h : i < 16) : (xorBlock a b)[i] = a[i] ^^^ b[i] := by
  simp [xorBlock]

@[simp] theorem subBytes_get (s : Block) (i : Nat) (h : i < 16) : (subBytes s)[i] = sbox s[i] := by
  simp [subBytes]

@[simp] theorem invSubBytes_get (s : Block) (i : Nat) (h : i < 16) : (invSubBytes s)[i] = invSbox s[i] := by
  simp [invSubBytes]

/-- `⊕` with the same array twice changes nothing (rule R127). -/
theorem xorBlock_xorBlock (a b : Block) : xorBlock (xorBlock a b) b = a := by
  apply Vector.ext
  intro i hi
  simp

end Sys2Proof.Machine
end

