-- ==== Sys2Proof/Laws/Config.lean ====
section
/-! SUPPORT. The bounds of the open parameter `FRAME_MAX` (rule R6): the only facts a proof may use of it. -/

namespace Sys2Proof

theorem Config.frameMax_ge : 20 ≤ Config.frameMax := by
  unfold Config.frameMax; omega

theorem Config.frameMax_le : Config.frameMax ≤ 4095 := by
  have := Config.frameMaxSpare.isLt
  unfold Config.frameMax; omega

end Sys2Proof
end

