-- ==== Sys2Proof/Laws/State.lean ====
section
/-! SUPPORT. One lemma per field per update of the state, so that no proof unfolds a record update. -/

namespace Sys2Proof.Machine

variable (s : State) (st : Status) (payload data : List Byte) (k v : Block)

@[simp] theorem State.respond_cipher : (s.respond st payload).cipher = s.cipher := rfl
@[simp] theorem State.respond_reader : (s.respond st payload).reader = s.reader := rfl
@[simp] theorem State.respond_diag : (s.respond st payload).diag = s.diag := rfl
@[simp] theorem State.respond_stream : (s.respond st payload).stream = s.stream := rfl
@[simp] theorem State.respond_responses :
    (s.respond st payload).responses = (st.code :: payload) :: s.responses := rfl

@[simp] theorem State.fail_cipher : (s.fail st).cipher = s.cipher := rfl
@[simp] theorem State.fail_reader : (s.fail st).reader = s.reader := rfl
@[simp] theorem State.fail_diag : (s.fail st).diag = s.diag := rfl
@[simp] theorem State.fail_stream : (s.fail st).stream = s.stream := rfl
@[simp] theorem State.fail_responses : (s.fail st).responses = [st.code] :: s.responses := rfl

@[simp] theorem State.constructCipher_cipher :
    (s.constructCipher k v).cipher = some { skey := k, siv := v } := rfl
@[simp] theorem State.constructCipher_reader : (s.constructCipher k v).reader = s.reader := rfl
@[simp] theorem State.constructCipher_diag : (s.constructCipher k v).diag = s.diag := rfl
@[simp] theorem State.constructCipher_stream : (s.constructCipher k v).stream = s.stream := rfl
@[simp] theorem State.constructCipher_responses :
    (s.constructCipher k v).responses = s.responses := rfl

@[simp] theorem State.loadReader_cipher : (s.loadReader data).cipher = s.cipher := rfl
@[simp] theorem State.loadReader_reader : (s.loadReader data).reader = some { buf := data } := rfl
@[simp] theorem State.loadReader_diag : (s.loadReader data).diag = s.diag := rfl
@[simp] theorem State.loadReader_stream : (s.loadReader data).stream = s.stream := rfl
@[simp] theorem State.loadReader_responses : (s.loadReader data).responses = s.responses := rfl

@[simp] theorem State.raiseDiag_cipher : s.raiseDiag.cipher = s.cipher := rfl
@[simp] theorem State.raiseDiag_reader : s.raiseDiag.reader = s.reader := rfl
@[simp] theorem State.raiseDiag_diag : s.raiseDiag.diag = true := rfl
@[simp] theorem State.raiseDiag_stream : s.raiseDiag.stream = s.stream := rfl
@[simp] theorem State.raiseDiag_responses : s.raiseDiag.responses = s.responses := rfl

@[simp] theorem State.clearUnits_cipher : s.clearUnits.cipher = none := rfl
@[simp] theorem State.clearUnits_reader : s.clearUnits.reader = none := rfl
@[simp] theorem State.clearUnits_diag : s.clearUnits.diag = false := rfl
@[simp] theorem State.clearUnits_stream : s.clearUnits.stream = s.stream := rfl
@[simp] theorem State.clearUnits_responses : s.clearUnits.responses = s.responses := rfl

@[simp] theorem State.reset_cipher : State.reset.cipher = none := rfl
@[simp] theorem State.reset_reader : State.reset.reader = none := rfl
@[simp] theorem State.reset_diag : State.reset.diag = false := rfl
@[simp] theorem State.reset_stream : State.reset.stream = [] := rfl
@[simp] theorem State.reset_responses : State.reset.responses = [] := rfl

@[simp] theorem State.cValid_eq_isSome : s.cValid = s.cipher.isSome := rfl
@[simp] theorem State.bValid_eq_isSome : s.bValid = s.reader.isSome := rfl

@[simp] theorem ReaderUnit.len_mk : (ReaderUnit.mk data).len = data.length := rfl

@[ext] theorem State.ext_fields {s t : State} (hc : s.cipher = t.cipher) (hr : s.reader = t.reader)
    (hd : s.diag = t.diag) (hs : s.stream = t.stream) (hp : s.responses = t.responses) : s = t := by
  cases s; cases t; simp_all

end Sys2Proof.Machine
end

