-- ==== Sys2Proof/Laws/Ops.lean ====
section
/-! SUPPORT. One lemma per shared operation, saying everything it can do: the frame buffer, the bit space, the
transform command, the decoder's formats, the port. -/

namespace Sys2Proof.Machine

/-! ### The frame buffer -/

theorem blockAt_get (F : List Byte) (a : Nat) (i : Fin 16) :
    (blockAt F a)[i] = F.getD (a + i.val) 0 := by
  simp [blockAt]

@[simp] theorem putBlock_length (F : List Byte) (a : Nat) (V : Block) (h : a + 16 ≤ F.length) :
    (putBlock F a V).length = F.length := by
  simp [putBlock]; omega

/-- Every byte of the buffer after a write of 16 bytes at `a` (rule R9). -/
theorem putBlock_get (F : List Byte) (a : Nat) (V : Block) (h : a + 16 ≤ F.length) (k : Nat) :
    (putBlock F a V)[k]? = if hk : a ≤ k ∧ k < a + 16 then some (V[k - a]'(by omega)) else F[k]? := by
  unfold putBlock
  split
  · next hk =>
    rw [List.getElem?_append_left (by simp; omega), List.getElem?_append_right (by simp; omega)]
    have h1 : k - (F.take a).length = k - a := by simp; omega
    rw [h1, List.getElem?_eq_getElem (by simp; omega)]
    simp
  · next hk =>
    rcases Nat.lt_or_ge k a with hlt | hge
    · rw [List.append_assoc, List.getElem?_append_left (by simp; omega), List.getElem?_take]
      simp [hlt]
    · rw [List.getElem?_append_right (by simp; omega)]
      simp only [List.length_append, List.length_take, Vector.length_toList, List.getElem?_drop]
      congr 1; omega

/-- A write of 16 bytes is read back (rule R9). -/
theorem blockAt_putBlock (F : List Byte) (a : Nat) (V : Block) (h : a + 16 ≤ F.length) :
    blockAt (putBlock F a V) a = V := by
  apply Vector.ext
  intro i hi
  have hk := putBlock_get F a V h (a + i)
  rw [dif_pos (by omega)] at hk
  have hi' : a + i - a = i := by omega
  simp [blockAt, List.getD_eq_getElem?_getD, hk, hi']

/-- Writing back what was read changes nothing (rule R9). -/
theorem putBlock_blockAt (F : List Byte) (a : Nat) (h : a + 16 ≤ F.length) :
    putBlock F a (blockAt F a) = F := by
  apply List.ext_getElem?
  intro k
  rw [putBlock_get F a _ h]
  split
  · next hk =>
    rw [List.getElem?_eq_getElem (by omega : k < F.length)]
    have hk' : a + (k - a) = k := by omega
    simp [blockAt, hk', List.getElem?_eq_getElem (by omega : k < F.length)]
  · rfl

/-- The later of two writes at one index wins (rule R9). -/
theorem putBlock_putBlock (F : List Byte) (a : Nat) (V W : Block) (h : a + 16 ≤ F.length) :
    putBlock (putBlock F a V) a W = putBlock F a W := by
  apply List.ext_getElem?
  intro k
  rw [putBlock_get _ a W (by rw [putBlock_length F a V h]; exact h), putBlock_get F a W h,
    putBlock_get F a V h]
  split <;> rfl

/-- A pass changes the 16 bytes it works on and nothing else, and keeps the length (rules R74, R78, R81). -/
theorem passAt_length (f : Block → Block) (a : Nat) (F : List Byte) (h : a + 16 ≤ F.length) :
    (passAt f a F).length = F.length :=
  putBlock_length F a _ h

/-- Two passes at one index whose block maps undo each other undo each other. -/
theorem passAt_passAt (f g : Block → Block) (hgf : ∀ x, g (f x) = x) (a : Nat) (F : List Byte)
    (h : a + 16 ≤ F.length) : passAt g a (passAt f a F) = F := by
  unfold passAt
  rw [blockAt_putBlock F a _ h, hgf, putBlock_putBlock F a _ _ h, putBlock_blockAt F a h]

/-! ### The reader bit space -/

/-- One more bit: the value doubles and takes it in (rule R8). -/
theorem ubits_succ (X : List Byte) (s n : Nat) :
    ubits X s (n + 1) = 2 * ubits X s n + (bitAt X (s + n)).toNat := by
  simp [ubits, bits, List.range_succ]

@[simp] theorem ubits_zero (X : List Byte) (s : Nat) : ubits X s 0 = 0 := rfl

/-- A field of `n` bits is below 2^n (rule R97). -/
theorem ubits_lt (X : List Byte) (s n : Nat) : ubits X s n < 2 ^ n := by
  induction n with
  | zero => simp
  | succ n ih =>
    rw [ubits_succ, Nat.pow_succ]
    have := Bool.toNat_le (bitAt X (s + n))
    omega

/-- Reading past a split: the high part scaled, then the low part (rule R8). -/
theorem ubits_add (X : List Byte) (s m n : Nat) :
    ubits X s (m + n) = ubits X s m * 2 ^ n + ubits X (s + m) n := by
  induction n with
  | zero => simp
  | succ n ih =>
    rw [← Nat.add_assoc, ubits_succ, ih, ubits_succ, Nat.pow_succ, Nat.add_assoc s m n]
    ring

/-! ### Operand checks -/

theorem cinitLengthsOk_iff (key iv salt : List Byte) :
    cinitLengthsOk key iv salt = true ↔ key.length = 16 ∧ iv.length = 16 ∧ salt.length = 6 := by
  simp [cinitLengthsOk, and_assoc]

theorem tooShort_iff (data : List Byte) : tooShort data = true ↔ data.length < 16 := by
  simp [tooShort]

theorem tooLong_iff (data : List Byte) : tooLong data = true ↔ Config.frameMax < data.length := by
  simp [tooLong]

theorem legalBitLength_iff (n : Nat) :
    legalBitLength n = true ↔ (1 ≤ n ∧ n ≤ 8) ∨ n = 16 ∨ n = 32 := by
  simp [legalBitLength, or_assoc]

theorem inBounds_iff (startBit : Int) (bitLength len : Nat) :
    inBounds startBit bitLength len = true ↔
      0 ≤ startBit ∧ startBit + (bitLength : Int) ≤ 8 * (len : Int) := by
  simp [inBounds]

/-! ### What a command can do: the one inversion lemma of each -/

/-- Everything CENC and CDEC can do (rules R77, R80). -/
theorem transformCommand_cases {f : Block → Block → List Byte → List Byte} {data : List Byte} {s t : State}
    (h : transformCommand f data s = .next t) :
    (s.cipher = none ∧ t = s.fail .eNotReady) ∨
    (∃ c, s.cipher = some c ∧ data.length < 16 ∧ t = s.fail .eValidation) ∨
    (∃ c, s.cipher = some c ∧ Config.frameMax < data.length ∧ t = s.fail .eCapacity) ∨
    (∃ c, s.cipher = some c ∧ 16 ≤ data.length ∧ data.length ≤ Config.frameMax ∧
      t = s.respond .ok (f c.skey c.siv data)) := by
  unfold transformCommand at h
  split at h
  · next hc => left; cases h; exact ⟨hc, rfl⟩
  · next c hc =>
    right
    split at h
    · next hs => left; cases h; exact ⟨c, hc, (tooShort_iff _).1 hs, rfl⟩
    · next hs =>
      right
      have hs' : 16 ≤ data.length := by
        rw [tooShort_iff] at hs; omega
      split at h
      · next hl => left; cases h; exact ⟨c, hc, (tooLong_iff _).1 hl, rfl⟩
      · next hl =>
        right; cases h
        rw [tooLong_iff] at hl
        exact ⟨c, hc, hs', by omega, rfl⟩

/-- Everything CINIT can do (rule R75). -/
theorem execCinit_cases {key iv salt : List Byte} {s t : State} (h : execCinit key iv salt s = .next t) :
    ((key.length = 16 ∧ iv.length = 16 ∧ salt.length = 6) ∧
      t = (s.constructCipher (salt16 (toBlock key) (toSalt salt))
        (salt16 (toBlock iv) (toSalt salt))).respond .ok []) ∨
    (¬ (key.length = 16 ∧ iv.length = 16 ∧ salt.length = 6) ∧ t = s.fail .eValidation) := by
  unfold execCinit at h
  split at h
  · next hl => left; cases h; exact ⟨(cinitLengthsOk_iff _ _ _).1 hl, rfl⟩
  · next hl => right; cases h; exact ⟨fun h' => hl ((cinitLengthsOk_iff _ _ _).2 h'), rfl⟩

/-- Everything BLOAD can do (rule R90). -/
theorem execBload_cases {data : List Byte} {s t : State} (h : execBload data s = .next t) :
    (Config.frameMax < data.length ∧ t = s.fail .eCapacity) ∨
    (data.length ≤ Config.frameMax ∧ t = (s.loadReader data).respond .ok []) := by
  unfold execBload at h
  split at h
  · next hl => left; cases h; exact ⟨(tooLong_iff _).1 hl, rfl⟩
  · next hl => right; cases h; rw [tooLong_iff] at hl; exact ⟨by omega, rfl⟩

/-- Everything BREAD can do (rules R92, R93). -/
theorem execBread_cases {startBit : Int} {bitLength : Nat} {littleEndian : Bool} {s t : State}
    (h : execBread startBit bitLength littleEndian s = .next t) :
    (s.reader = none ∧ t = s.fail .eNotReady) ∨
    (∃ r, s.reader = some r ∧ legalBitLength bitLength = false ∧ t = s.fail .eInvalidArg) ∨
    (∃ r, s.reader = some r ∧ legalBitLength bitLength = true ∧ inBounds startBit bitLength r.len = false ∧
      t = s.raiseDiag.respond .okOob (valueBytes 0)) ∨
    (∃ r, s.reader = some r ∧ legalBitLength bitLength = true ∧ inBounds startBit bitLength r.len = true ∧
      t = s.respond .ok
        (valueBytes (zext32 (fieldValue r.buf startBit.toNat bitLength littleEndian)))) := by
  unfold execBread at h
  split at h
  · next hr => left; cases h; exact ⟨hr, rfl⟩
  · next r hr =>
    right
    split at h
    · next hl =>
      right
      split at h
      · next hb => right; cases h; exact ⟨r, hr, hl, hb, rfl⟩
      · next hb => left; cases h; exact ⟨r, hr, hl, by simpa using hb, rfl⟩
    · next hl => left; cases h; exact ⟨r, hr, by simpa using hl, rfl⟩

/-- Everything the command port can do with a frame (rules R59, R61, R62). -/
theorem accept_cases {Q : Frame} {s : State} {o : Result} (h : accept Q s = o) :
    (∃ i, decode Q = .ok i ∧ o = exec i s) ∨
    (∃ e, decode Q = .error e ∧ o = .next (s.fail (Status.ofDecodeError e))) := by
  unfold accept at h
  split at h
  · next i hi => left; exact ⟨i, hi, h.symm⟩
  · next e he => right; exact ⟨e, he, h.symm⟩

/-- The port runs a frame that decodes (rule R59). -/
theorem accept_ok {Q : Frame} {i : Instr} (s : State) (h : decode Q = .ok i) : accept Q s = exec i s := by
  simp [accept, h]

/-- The port answers a frame that does not decode with the refusal's status (rules R61, R62). -/
theorem accept_error {Q : Frame} {e : DecodeError} (s : State) (h : decode Q = .error e) :
    accept Q s = .next (s.fail (Status.ofDecodeError e)) := by
  simp [accept, h]

/-- Everything one step can do: wait, or perform the host's next act (rules R18, R41, R190). -/
theorem step_cases {s : State} {o : Result} (h : step s = o) :
    (s.stream = [] ∧ o = .next s) ∨
    (∃ Q rest, s.stream = .command Q :: rest ∧ o = accept Q { s with stream := rest }) ∨
    (∃ a rest, s.stream = a :: rest ∧ (a = .reset ∨ ∃ Q, a = .commandThenReset Q) ∧
      o = .next (State.clearUnits { s with stream := rest })) := by
  unfold step nextAct at h
  split at h
  · next hs => exact .inl ⟨hs, h.symm⟩
  · next a rest hs =>
    right
    cases a with
    | command Q => exact .inl ⟨Q, rest, hs, h.symm⟩
    | commandThenReset Q => exact .inr ⟨_, rest, hs, .inr ⟨Q, rfl⟩, h.symm⟩
    | reset => exact .inr ⟨_, rest, hs, .inl rfl, h.symm⟩

/-! ### Where a command is performed -/

/-- CENC and CDEC where none of their three checks fails (rules R77, R80). -/
theorem transformCommand_ok (f : Block → Block → List Byte → List Byte) {data : List Byte} {s : State}
    {c : CipherUnit} (hc : s.cipher = some c) (hmin : 16 ≤ data.length)
    (hmax : data.length ≤ Config.frameMax) :
    transformCommand f data s = .next (s.respond .ok (f c.skey c.siv data)) := by
  have h1 : tooShort data = false := by rw [← Bool.not_eq_true, tooShort_iff]; omega
  have h2 : tooLong data = false := by rw [← Bool.not_eq_true, tooLong_iff]; omega
  simp [transformCommand, hc, h1, h2]

/-- BLOAD of a buffer that fits (rule R90). -/
theorem execBload_ok {data : List Byte} (s : State) (h : data.length ≤ Config.frameMax) :
    execBload data s = .next ((s.loadReader data).respond .ok []) := by
  have h1 : tooLong data = false := by rw [← Bool.not_eq_true, tooLong_iff]; omega
  simp [execBload, h1]

/-! ### The writes to the reader keep its form (rule R13) -/

theorem readerFits_reset : ReaderFits State.reset := by
  intro r h; cases h

theorem readerFits_loadReader (s : State) (data : List Byte) (h : data.length ≤ Config.frameMax) :
    ReaderFits (s.loadReader data) := by
  intro r hr
  cases hr
  exact h

theorem readerFits_clearUnits (s : State) : ReaderFits s.clearUnits := by
  intro r h; cases h

theorem readerFits_of_reader_eq {s t : State} (h : t.reader = s.reader) (hs : ReaderFits s) : ReaderFits t := by
  intro r hr
  exact hs r (h ▸ hr)

end Sys2Proof.Machine
end

