-- ==== Sys2Proof/Laws/PerInstr.lean ====
section
/-! SUPPORT. Statements made of every constructor of `Instr`. Family `EncodedLength`: the frame of a command is its
opcode followed by its operands, with the length rule R63 gives. -/

namespace Sys2Proof.Laws.EncodedLength

/-- The frame begins with the command's opcode (rule R51) and has the command's length (rule R63). -/
def Statement (i : Instr) : Prop :=
  ∃ body : Frame, encode i = opcodeOf i :: body ∧ (encode i).length = frameLength i

theorem cinit (key iv salt : List Byte) : Statement (.cinit key iv salt) :=
  ⟨_, rfl, by simp [encode, encodeBody, frameLength]; omega⟩

theorem cenc (data : List Byte) : Statement (.cenc data) :=
  ⟨_, rfl, by simp [encode, encodeBody, frameLength]; omega⟩

theorem cdec (data : List Byte) : Statement (.cdec data) :=
  ⟨_, rfl, by simp [encode, encodeBody, frameLength]; omega⟩

theorem bload (data : List Byte) : Statement (.bload data) :=
  ⟨_, rfl, by simp [encode, encodeBody, frameLength]; omega⟩

theorem bread (startBit : Int) (bitLength : Nat) (littleEndian : Bool) :
    Statement (.bread startBit bitLength littleEndian) :=
  ⟨_, rfl, rfl⟩

theorem stat : Statement .stat := ⟨_, rfl, rfl⟩

theorem rst : Statement .rst := ⟨_, rfl, rfl⟩

end Sys2Proof.Laws.EncodedLength
end

