-- ==== Sys2Proof/Tests/Slice0.lean ====
section
/-! SUPPORT. The model's own tests: ill-formed terms, words written out from the encoding rules, the spec's vectors
one command at a time, and for each statement with hypotheses a witness that meets them. -/

namespace Sys2Proof.Tests

open Sys2Proof.Machine

/-! ### Helpers -/

/-- The newest response after an outcome. -/
def reply (o : Result) : Option Frame :=
  match o with
  | .next t => t.responses.head?
  | .fault _ => none
  | .refused _ => none

/-- The STATUS byte after an outcome. -/
def statusAfter (o : Result) : Option Byte :=
  match o with
  | .next t => some t.statusByte
  | .fault _ => none
  | .refused _ => none

/-- Key set A of spec file 95, section 2.2: base key, base IV, salt. -/
def keyA : List Byte :=
  [0x00, 0x01, 0x02, 0x03, 0x04, 0x05, 0x06, 0x07, 0x08, 0x09, 0x0a, 0x0b, 0x0c, 0x0d, 0x0e, 0x0f]
def ivA : List Byte :=
  [0x10, 0x11, 0x12, 0x13, 0x14, 0x15, 0x16, 0x17, 0x18, 0x19, 0x1a, 0x1b, 0x1c, 0x1d, 0x1e, 0x1f]
def saltA : List Byte := [0xa1, 0xb2, 0xc3, 0xd4, 0xe5, 0xf6]

/-- Key set A's salted values, as the spec prints them. -/
def cipherA : CipherUnit where
  skey := #v[0xa1, 0xb3, 0xc5, 0xd7, 0xe9, 0xfb, 0x06, 0x07, 0x08, 0x09, 0x0a, 0x0b, 0x0c, 0x0d, 0x0e, 0x0f]
  siv := #v[0xb1, 0xc3, 0xd5, 0xe7, 0xf9, 0x0c, 0x16, 0x17, 0x18, 0x19, 0x1a, 0x1b, 0x1c, 0x1d, 0x1e, 0x1f]

/-- Buffer X of spec file 95, section 2.4. -/
def bufX : List Byte :=
  [0xA5, 0x3C, 0x0F, 0xF0, 0x81, 0x7E, 0xC3, 0x5A, 0x96, 0x69, 0x12, 0x34, 0x56, 0x78, 0x9A, 0xBC, 0xDE, 0xF0,
    0x01, 0xFF]

/-- The 20 plaintext bytes 0x40 to 0x53 of section 2.3. -/
def plain20 : List Byte :=
  [0x40, 0x41, 0x42, 0x43, 0x44, 0x45, 0x46, 0x47, 0x48, 0x49, 0x4a, 0x4b, 0x4c, 0x4d, 0x4e, 0x4f, 0x50, 0x51,
    0x52, 0x53]

/-- Their ciphertext under key set A, as section 2.3 prints it. -/
def wire20 : List Byte :=
  [0x6d, 0x6c, 0x03, 0x6e, 0x69, 0xd7, 0x92, 0x65, 0x17, 0xe2, 0xe8, 0xee, 0x9b, 0x22, 0x31, 0x85, 0xed, 0xe1,
    0xc3, 0x25]

/-- Reset, then key set A constructed. -/
def keyed : State := { State.reset with cipher := some cipherA }
/-- Reset, then buffer X loaded. -/
def loaded : State := { State.reset with reader := some { buf := bufX } }
/-- Both. -/
def both : State := { keyed with reader := some { buf := bufX } }

/-! ### WellFormed: an ill-formed term for each check -/

theorem test_illformed_key_length : (Instr.cinit (List.replicate 256 0) [] []).wellFormed = false := by
  decide +kernel
theorem test_illformed_iv_length : (Instr.cinit [] (List.replicate 256 0) []).wellFormed = false := by
  decide +kernel
theorem test_illformed_salt_length : (Instr.cinit [] [] (List.replicate 256 0)).wellFormed = false := by
  decide +kernel
theorem test_illformed_start_low : (Instr.bread (-32769) 8 false).wellFormed = false := by decide
theorem test_illformed_start_high : (Instr.bread 32768 8 false).wellFormed = false := by decide
theorem test_illformed_bit_length : (Instr.bread 0 256 false).wellFormed = false := by decide
theorem test_wellformed_edges :
    (Instr.bread (-32768) 255 true).wellFormed = true ∧ (Instr.bread 32767 0 false).wellFormed = true ∧
    (Instr.cinit (List.replicate 255 0) [] (List.replicate 255 0)).wellFormed = true := by decide +kernel

/-! ### Decode: each constructor's frame, written out from rules R53 to R57 and the frames of file 95 -/

/-- P1: `01 10 10 06`, key, IV, salt. -/
theorem test_decode_cinit :
    decode ([0b00000001, 0b00010000, 0b00010000, 0b00000110] ++ keyA ++ ivA ++ saltA) =
      .ok (.cinit keyA ivA saltA) := by decide
/-- Rule R53: the lengths part the bytes, key first, then IV, then salt. -/
theorem test_decode_cinit_parts :
    decode [0x01, 0x02, 0x01, 0x03, 0x0A, 0x0B, 0x0C, 0x0D, 0x0E, 0x0F] =
      .ok (.cinit [0x0A, 0x0B] [0x0C] [0x0D, 0x0E, 0x0F]) := by decide
theorem test_decode_cenc : decode [0b00000010, 0x10, 0xFE] = .ok (.cenc [0x10, 0xFE]) := by decide
theorem test_decode_cdec : decode [0b00000011, 0x57, 0x56] = .ok (.cdec [0x57, 0x56]) := by decide
theorem test_decode_bload : decode [0b00000100, 0xA5, 0x3C] = .ok (.bload [0xA5, 0x3C]) := by decide
theorem test_decode_bload_empty : decode [0x04] = .ok (.bload []) := by decide
/-- File 95, section 2.4: `05 07 D8 20 01` is `BREAD 2008, 32, LE`. -/
theorem test_decode_bread :
    decode [0b00000101, 0b00000111, 0b11011000, 0b00100000, 0b00000001] = .ok (.bread 2008 32 true) := by decide
/-- `05 FF F8 10 00` is `BREAD -8, 16, BE`; `05 80 00 08 00` is `BREAD -32768, 8`; `05 7F FF 01 00` is
`BREAD 32767, 1`. -/
theorem test_decode_bread_signed :
    decode [0x05, 0xFF, 0xF8, 0x10, 0x00] = .ok (.bread (-8) 16 false) ∧
    decode [0x05, 0x80, 0x00, 0x08, 0x00] = .ok (.bread (-32768) 8 false) ∧
    decode [0x05, 0x7F, 0xFF, 0x01, 0x00] = .ok (.bread 32767 1 false) := by decide
theorem test_decode_stat : decode [0b00000110] = .ok .stat := by decide
theorem test_decode_rst : decode [0b00000111] = .ok .rst := by decide

/-- The refused frames of file 95, section 2.5. -/
theorem test_decode_malformed :
    decode [] = .error .malformed ∧
    decode [0x05] = .error .malformed ∧
    decode [0x05, 0x00, 0x00, 0x08] = .error .malformed ∧
    decode [0x05, 0x00, 0x00, 0x08, 0x00, 0x00] = .error .malformed ∧
    decode [0x05, 0x00, 0x00, 0x08, 0x02] = .error .malformed ∧
    decode [0x05, 0x00, 0x00, 0x08, 0xFF] = .error .malformed ∧
    decode [0x05, 0x00, 0x00, 0x10, 0x80] = .error .malformed ∧
    decode [0x06, 0x00] = .error .malformed ∧
    decode [0x07, 0x00] = .error .malformed ∧
    decode [0x01, 0x10, 0x10] = .error .malformed ∧
    decode ([0x01, 0x10, 0x10, 0x06] ++ List.replicate 37 0) = .error .malformed := by decide
theorem test_decode_illegal :
    decode [0x00] = .error .illegalOp ∧ decode [0x08] = .error .illegalOp ∧ decode [0xFF] = .error .illegalOp ∧
    decode [0xFF, 0x01, 0x02] = .error .illegalOp := by decide

/-- Rows of the opcode table as words: bits 7 to 0 are the first byte. -/
theorem test_table_words :
    decodeTableWord 8 0x01 = some (.cinit [] [] []) ∧
    decodeTableWord 32 0x01000001 = some (.cinit [] [] [0]) ∧
    decodeTableWord 40 0x0110F8FF05 = some (.bread (-8) 16 true) ∧
    decodeTableWord 8 0x06 = some .stat ∧
    decodeTableWord 8 0x08 = none := by decide
/-- A placed word is the next step's command: `STAT` right after reset answers `OK 00` (section 2.6). -/
theorem test_placed_word_runs : reply (step (State.reset.withFetchWord 8 0x06)) = some [0x00, 0x00] := by decide

/-! ### CINIT (file 95, sections 2.2 and 2.3) -/

/-- Key set A. -/
theorem test_cinit_key_set_a : exec (.cinit keyA ivA saltA) State.reset = .next (keyed.respond .ok []) := by rfl
/-- `01 00 00 00`: well formed, refused by CINIT. -/
theorem test_cinit_validation :
    reply (accept [0x01, 0x00, 0x00, 0x00] State.reset) = some [0x81] ∧
    statusAfter (accept [0x01, 0x00, 0x00, 0x00] both) = some 0x03 := by decide
/-- The single-byte table of section 2.2. -/
theorem test_salt_bytes :
    saltByte 0x7F 0x7F = 0xFE ∧ saltByte 0xFE 0x00 = 0xFE ∧ saltByte 0xFF 0x00 = 0x00 ∧
    saltByte 0xFE 0x01 = 0x00 ∧ saltByte 0x80 0x80 = 0x01 ∧ saltByte 0x01 0xFF = 0x01 ∧
    saltByte 0x10 0xFF = 0x10 ∧ saltByte 0xFE 0xFF = 0xFE ∧ saltByte 0xFF 0xFF = 0x00 := by decide
/-- Row 3 of the array table of section 2.2. -/
theorem test_salt_array :
    salt16 #v[0xff, 0xfe, 0xfd, 0x80, 0x10, 0xff, 0x06, 0x07, 0x08, 0x09, 0xff, 0xfe, 0xfd, 0xfc, 0xfb, 0xfa]
      #v[0x00, 0x01, 0x02, 0x80, 0x80, 0x01] =
    #v[0x00, 0x00, 0x00, 0x01, 0x90, 0x01, 0x06, 0x07, 0x08, 0x09, 0xff, 0xfe, 0xfd, 0xfc, 0xfb, 0xfa] := by
  decide

/-! ### The AES primitive (file 95, section 2.1) -/

theorem test_aes_small_checks :
    sbox 0x00 = 0x63 ∧ sbox 0x01 = 0x7c ∧ sbox 0x53 = 0xed ∧ invSbox 0xed = 0x53 ∧ gfMul 0x53 0xCA = 0x01 ∧
    xtime 0x57 = 0xAE ∧ gfMul 0x57 0x13 = 0xFE ∧ gfMul 0x57 0x83 = 0xC1 ∧
    mixColumn 0xdb 0x13 0x53 0x45 = #v[0x8e, 0x4d, 0xa1, 0xbc] ∧ rcon 10 = 0x36 := by decide
theorem test_round_key_10 :
    roundKey #v[0x2b, 0x7e, 0x15, 0x16, 0x28, 0xae, 0xd2, 0xa6, 0xab, 0xf7, 0x15, 0x88, 0x09, 0xcf, 0x4f, 0x3c] 10 =
    #v[0xd0, 0x14, 0xf9, 0xa8, 0xc9, 0xee, 0x25, 0x89, 0xe1, 0x3f, 0x0c, 0xc8, 0xb6, 0x63, 0x0c, 0xa6] := by
  decide +kernel
theorem test_aes_zero :
    aesEncrypt (Vector.replicate 16 0) (Vector.replicate 16 0) =
    #v[0x66, 0xe9, 0x4b, 0xd4, 0xef, 0x8a, 0x2c, 0x3b, 0x88, 0x4c, 0xfa, 0x59, 0xca, 0x34, 0x2b, 0x2e] := by
  decide +kernel
theorem test_aes_decrypt :
    aesDecrypt
      #v[0x00, 0x01, 0x02, 0x03, 0x04, 0x05, 0x06, 0x07, 0x08, 0x09, 0x0a, 0x0b, 0x0c, 0x0d, 0x0e, 0x0f]
      #v[0x69, 0xc4, 0xe0, 0xd8, 0x6a, 0x7b, 0x04, 0x30, 0xd8, 0xcd, 0xb7, 0x80, 0x70, 0xb4, 0xc5, 0x5a] =
    #v[0x00, 0x11, 0x22, 0x33, 0x44, 0x55, 0x66, 0x77, 0x88, 0x99, 0xaa, 0xbb, 0xcc, 0xdd, 0xee, 0xff] := by
  decide +kernel

/-! ### CENC and CDEC (file 95, section 2.3) -/

/-- Length 20, the overlapping passes. -/
theorem test_cenc_20 : reply (exec (.cenc plain20) keyed) = some (0x00 :: wire20) := by decide +kernel
/-- Priority: too short before CINIT is `E_NOT_READY`, after it `E_VALIDATION`. -/
theorem test_cenc_short :
    reply (accept (0x02 :: List.replicate 15 0) State.reset) = some [0x83] ∧
    reply (accept (0x02 :: List.replicate 15 0) keyed) = some [0x81] := by decide
/-- Length 20 back. -/
theorem test_cdec_20 : reply (exec (.cdec wire20) keyed) = some (0x00 :: plain20) := by decide +kernel
theorem test_cdec_short :
    reply (accept (0x03 :: List.replicate 15 0) keyed) = some [0x81] ∧
    reply (accept [0x03] State.reset) = some [0x83] := by decide
/-- Length 33: byte 16 is plaintext in the result. -/
theorem test_encrypt_33 :
    encryptFrame cipherA.skey cipherA.siv ((List.range 33).map fun i => BitVec.ofNat 8 (0x40 + i)) =
    [0x6d, 0x6c, 0x03, 0x6e, 0x7a, 0x51, 0x4b, 0xf5, 0x25, 0x22, 0x53, 0x1d, 0x6e, 0x1b, 0x31, 0x4e, 0x50, 0xbb,
      0xf1, 0xe7, 0x4c, 0x42, 0xd6, 0x8f, 0x87, 0xa2, 0x86, 0x45, 0x0c, 0x2c, 0x59, 0xe1, 0x47] := by
  decide +kernel
/-- Length 17: only byte 0 keeps its pass-1 value. -/
theorem test_encrypt_17 :
    encryptFrame cipherA.skey cipherA.siv (plain20.take 17) =
    [0x6d, 0x7f, 0x6a, 0x82, 0xea, 0x05, 0x06, 0x3d, 0x74, 0xa0, 0x2f, 0x5d, 0x26, 0x38, 0xcb, 0x38, 0x61] := by
  decide +kernel

/-! ### BLOAD and BREAD (file 95, section 2.4) -/

theorem test_bload : exec (.bload bufX) State.reset = .next (loaded.respond .ok []) :=
  execBload_ok State.reset (Nat.le_trans (by decide) Config.frameMax_ge)
/-- An empty buffer is loaded, and every read of it is out of bounds. -/
theorem test_bload_empty :
    statusAfter (accept [0x04] keyed) = some 0x03 ∧
    reply (accept [0x05, 0, 0, 1, 0] { State.reset with reader := some { buf := [] } }) = some [1, 0, 0, 0, 0] := by
  decide +kernel

/-- The rows of section 2.4: narrow, unaligned, wide in both byte orders. -/
theorem test_bread_values :
    reply (accept [0x05, 0x00, 0x04, 0x08, 0x00] loaded) = some [0x00, 0x00, 0x00, 0x00, 0x53] ∧
    reply (accept [0x05, 0x00, 0x07, 0x03, 0x00] loaded) = some [0x00, 0x00, 0x00, 0x00, 0x04] ∧
    reply (accept [0x05, 0x00, 0x9F, 0x01, 0x00] loaded) = some [0x00, 0x00, 0x00, 0x00, 0x01] ∧
    reply (accept [0x05, 0x00, 0x2F, 0x10, 0x00] loaded) = some [0x00, 0x00, 0x00, 0x61, 0xAD] ∧
    reply (accept [0x05, 0x00, 0x2F, 0x10, 0x01] loaded) = some [0x00, 0x00, 0x00, 0xAD, 0x61] ∧
    reply (accept [0x05, 0x00, 0x05, 0x20, 0x00] loaded) = some [0x00, 0xA7, 0x81, 0xFE, 0x10] ∧
    reply (accept [0x05, 0x00, 0x80, 0x20, 0x01] loaded) = some [0x00, 0xFF, 0x01, 0xF0, 0xDE] := by
  decide +kernel
/-- The refused and the lenient rows of section 2.4. -/
theorem test_bread_stops :
    reply (accept [0x05, 0x00, 0x99, 0x08, 0x00] loaded) = some [0x01, 0x00, 0x00, 0x00, 0x00] ∧
    reply (accept [0x05, 0xFF, 0xF8, 0x10, 0x00] loaded) = some [0x01, 0x00, 0x00, 0x00, 0x00] ∧
    statusAfter (accept [0x05, 0xFF, 0xFF, 0x01, 0x00] loaded) = some 0x06 ∧
    reply (accept [0x05, 0x00, 0xC8, 0x0C, 0x00] loaded) = some [0x82] ∧
    statusAfter (accept [0x05, 0xFF, 0xFB, 0x00, 0x00] loaded) = some 0x02 ∧
    reply (accept [0x05, 0x00, 0x00, 0x08, 0x00] State.reset) = some [0x83] := by decide +kernel

/-! ### STAT and RST (file 95, section 2.6) -/

theorem test_stat :
    reply (exec .stat keyed) = some [0x00, 0x01] ∧ reply (exec .stat both) = some [0x00, 0x03] ∧
    reply (exec .stat { both with diag := true }) = some [0x00, 0x07] := by decide
theorem test_rst :
    reply (exec .rst { both with diag := true }) = some [0x00] ∧
    statusAfter (exec .rst { both with diag := true }) = some 0x00 := by decide

/-! ### The text of commands and the host's software (rule R64; file 95, section 1) -/

theorem test_text_of_bread :
    Asm.assembleText "BREAD -8, 16, LE   # a comment".toList = some [0x05, 0xFF, 0xF8, 0x10, 0x01] ∧
    Asm.assembleText "BREAD 0, 16".toList = none ∧
    Asm.responseText [0x01, 0x00, 0x00, 0x00, 0x00] = some "-> OK_OOB 00000000".toList := by decide +kernel
/-- S3, S4, S7, S8. -/
theorem test_host_examples :
    Gen2.serialDiff 2 250 = 7 ∧ Gen2.moveToken 1 1 = ['R', '\''] ∧ Gen2.moveToken 3 0 = ['D'] ∧
    Gen2.quaternionValue 0x7FFF = 1 ∧ Gen2.quaternionValue 0xFFFF = -1 ∧ Gen2.batteryLevel 150 = 100 := by
  decide +kernel

/-- P2's MOVE frame with big-endian reads, serial 0x2A after 0x28: slot 1 (D, 0x4567 ms), then slot 0 (R', 0x0123 ms,
the host's timestamp). -/
theorem test_host_move_frame :
    (Gen2.handleMove false 1000
      [0x22, 0xa1, 0x98, 0x0b, 0x22, 0x44, 0x02, 0x46, 0x8a, 0xce, 0x00, 0x00, 0x01, 0xff, 0x00, 0x02, 0x20, 0x01,
        0x57, 0x9a]
      { lastSerial := some 0x28, lastMoveHostTimestamp := 0, cubeTimestampAccumulator := 0 }).2 =
    [.move { serial := 0x29, token := ['D'], cubeTimestamp := 0x4567, hostTimestamp := none },
     .move { serial := 0x2A, token := ['R', '\''], cubeTimestamp := 0x468A, hostTimestamp := some 1000 }] := by
  decide +kernel

/-! ### Witnesses: each statement's hypotheses met together -/

/-- 20 bytes fit every instance. -/
theorem plain20_fits : plain20.length ≤ Config.frameMax := Nat.le_trans (by decide) Config.frameMax_ge
theorem bufX_fits : bufX.length ≤ Config.frameMax := Nat.le_trans (by decide) Config.frameMax_ge
/-- 4096 bytes fit none. -/
theorem over_every_frameMax : Config.frameMax < (List.replicate 4096 (0 : Byte)).length := by
  have := Config.frameMax_le
  rw [List.length_replicate]; omega

theorem test_witness_DecodeOfEncode :
    (Instr.cinit keyA ivA saltA).wellFormed = true ∧ (Instr.bread (-32768) 255 true).wellFormed = true ∧
    (Instr.cenc []).wellFormed = true := by decide
theorem test_witness_EncodeOfDecode : decode [0x05, 0x00, 0x2F, 0x10, 0x01] = .ok (.bread 47 16 true) := by decide
theorem test_witness_IllegalOpcodeRefused :
    ((0x00 : Byte) = 0x00 ∨ 0x08 ≤ (0x00 : Byte).toNat) ∧ ((0x08 : Byte) = 0x00 ∨ 0x08 ≤ (0x08 : Byte).toNat) ∧
    ((0xFF : Byte) = 0x00 ∨ 0x08 ≤ (0xFF : Byte).toNat) := by decide
theorem test_witness_MalformedFrameRefused :
    decode [] = .error .malformed ∧ decode [0x05, 0x00, 0x00, 0x08, 0x02] = .error .malformed := by decide
theorem test_witness_BreadOperandAssembly :
    (0x01 : Byte).toNat < 2 ∧ decode [0x05, 0x80, 0x00, 0xFF, 0x01] = .ok (.bread (-32768) 255 true) ∧
    (20 ≤ Config.frameMax ∧ 1 ≤ 1 ∧ inBounds 159 1 20 = true) :=
  ⟨by decide, by decide, Config.frameMax_ge, by decide, by decide⟩
theorem test_witness_ReservedBitsRefused :
    2 ≤ (0x02 : Byte).toNat ∧ 2 ≤ (0xFE : Byte).toNat ∧ (0x01 : Byte).toNat < 2 := by decide
theorem test_witness_StepRunsDecodedCommand :
    ({ keyed with stream := [.command [0x06], .reset] } : State).stream = .command [0x06] :: [.reset] ∧
    decode [0x06] = .ok .stat := by decide
theorem test_witness_IdleBlockWaits : State.reset.stream = [] := by decide
theorem test_witness_ResetInputClearsBlock :
    ({ both with stream := [.commandThenReset [0x07]] } : State).stream = .commandThenReset [0x07] :: [] ∧
    ({ both with stream := [.reset] } : State).stream = .reset :: [] := by decide
theorem test_witness_CinitConstructs : keyA.length = 16 ∧ ivA.length = 16 ∧ saltA.length = 6 := by decide
theorem test_witness_CinitRefusesWrongLengths :
    ¬ (([] : List Byte).length = 16 ∧ ivA.length = 16 ∧ saltA.length = 6) ∧
    ¬ (keyA.length = 16 ∧ ivA.length = 16 ∧ (saltA.take 5).length = 6) := by decide
theorem test_witness_SaltingModulo255 :
    keyA.length = 16 ∧ ivA.length = 16 ∧ saltA.length = 6 ∧
    exec (.cinit keyA ivA saltA) State.reset = .next (keyed.respond .ok []) :=
  ⟨rfl, rfl, rfl, test_cinit_key_set_a⟩
theorem test_witness_SaltingConsequences :
    (0xFE : Byte).toNat + (0x00 : Byte).toNat < 255 ∧ 6 ≤ (6 : Fin 16).val ∧
    (Vector.replicate 16 (0xFF#8) : Block)[6] = 0xFF#8 := by decide
theorem test_witness_KeyExpansionRecurrence : 1 ≤ 1 ∧ (1 + 4) % 4 ≠ 0 ∧ (0 + 4) % 4 = 0 := by decide
theorem test_witness_CencCompletes :
    keyed.cipher = some cipherA ∧ 16 ≤ plain20.length ∧ plain20.length ≤ Config.frameMax :=
  ⟨rfl, by decide, plain20_fits⟩
theorem test_witness_CdecCompletes :
    keyed.cipher = some cipherA ∧ 16 ≤ (wire20.take 16).length ∧ (wire20.take 16).length ≤ Config.frameMax :=
  ⟨rfl, by decide, Nat.le_trans (by decide) Config.frameMax_ge⟩
theorem test_witness_CipherCommandsRefuse :
    State.reset.cipher = none ∧ (keyed.cipher ≠ none ∧ (plain20.take 15).length < 16) ∧
    (keyed.cipher ≠ none ∧ Config.frameMax < (List.replicate 4096 (0 : Byte)).length) :=
  ⟨rfl, ⟨by decide, by decide⟩, by decide, over_every_frameMax⟩
theorem test_witness_EncryptByLength :
    (List.replicate 16 (0 : Byte)).length = 16 ∧ 16 < (List.replicate 17 (0 : Byte)).length ∧
    (List.replicate 31 (0 : Byte)).length < 32 ∧ (List.replicate 32 (0 : Byte)).length = 32 ∧
    32 < (List.replicate 33 (0 : Byte)).length := by decide
theorem test_witness_DecryptByLength :
    (List.replicate 16 (0 : Byte)).length = 16 ∧ 16 < (List.replicate 17 (0 : Byte)).length ∧
    (List.replicate 31 (0 : Byte)).length < 32 ∧ 32 ≤ (List.replicate 32 (0 : Byte)).length := by decide

/-- CENC of the 20-byte frame, as the next state it gives. -/
theorem keyed_cenc :
    exec (.cenc plain20) keyed = .next (keyed.respond .ok (encryptFrame cipherA.skey cipherA.siv plain20)) :=
  transformCommand_ok (s := keyed) (c := cipherA) encryptFrame rfl (by decide) plain20_fits

theorem test_witness_NoPadding :
    16 ≤ plain20.length ∧ ∃ t payload, exec (.cenc plain20) keyed = .next t ∧ Answered keyed t (0x00 :: payload) :=
  ⟨by decide, _, _, keyed_cenc, rfl, rfl⟩
theorem test_witness_CipherRoundTrip :
    keyed.cValid = true ∧ 16 ≤ plain20.length ∧ plain20.length ≤ Config.frameMax ∧
    ∃ t y, exec (.cenc plain20) keyed = .next t ∧ Answered keyed t (0x00 :: y) :=
  ⟨rfl, by decide, plain20_fits, _, _, keyed_cenc, rfl, rfl⟩
theorem test_witness_TransformDeterministic :
    keyed.cipher = both.cipher ∧
    (let F := plain20
     let G := plain20.take 16 ++ [0, 0, 0, 0]
     F.length = G.length ∧ 16 ≤ F.length ∧ F.take 16 = G.take 16 ∧ 16 < F.length ∧ F.length < 32) ∧
    (let F := plain20 ++ plain20
     let G := plain20 ++ wire20
     F.length = G.length ∧ 16 ≤ F.length ∧ F.take 16 = G.take 16 ∧ 32 ≤ F.length) := by decide
theorem test_witness_BloadLoadsOrRefuses :
    bufX.length ≤ Config.frameMax ∧ ([] : List Byte).length ≤ Config.frameMax ∧
    Config.frameMax < (List.replicate 4096 (0 : Byte)).length :=
  ⟨bufX_fits, Nat.zero_le _, over_every_frameMax⟩
theorem test_witness_UbitsIsBitSum : 0 / 8 < bufX.length ∧ 159 / 8 < bufX.length ∧ 31 < 32 := by decide
theorem test_witness_BreadNarrowCompletes :
    loaded.reader = some { buf := bufX } ∧ (1 ≤ 8 ∧ 8 ≤ 8 ∧ 152 + 8 ≤ 8 * (ReaderUnit.mk bufX).len) ∧
    (1 ≤ 1 ∧ 1 ≤ 8 ∧ 159 + 1 ≤ 8 * (ReaderUnit.mk bufX).len) := by decide
theorem test_witness_BreadWideCompletes :
    loaded.reader = some { buf := bufX } ∧ 144 + 16 ≤ 8 * (ReaderUnit.mk bufX).len ∧
    128 + 32 ≤ 8 * (ReaderUnit.mk bufX).len := by decide
theorem test_witness_WideValueForms : (16 = 16 ∨ 16 = 32) ∧ (32 = 16 ∨ 32 = 32) := by decide
theorem test_witness_UnalignedGroups : 47 % 8 ≠ 0 ∧ 47 / 8 + 1 + 1 < bufX.length := by decide
theorem test_witness_BreadOutOfBounds :
    loaded.reader = some { buf := bufX } ∧
    (((1 ≤ 8 ∧ 8 ≤ 8) ∨ 8 = 16 ∨ 8 = 32) ∧
      ((153 : Int) < 0 ∨ 8 * ((ReaderUnit.mk bufX).len : Int) < 153 + ((8 : Nat) : Int))) ∧
    (((1 ≤ 16 ∧ 16 ≤ 8) ∨ 16 = 16 ∨ 16 = 32) ∧
      ((-1 : Int) < 0 ∨ 8 * ((ReaderUnit.mk bufX).len : Int) < -1 + ((16 : Nat) : Int))) := by decide
theorem test_witness_BreadRefusals :
    loaded.reader = some { buf := bufX } ∧ State.reset.reader = none ∧
    (∀ n ∈ [0, 9, 15, 17, 31, 33, 255], n = 0 ∨ (9 ≤ n ∧ n ≤ 15) ∨ (17 ≤ n ∧ n ≤ 31) ∨ (33 ≤ n ∧ n ≤ 255)) := by
  decide
theorem test_witness_BoundsCorners :
    ((1 ≤ 1 ∧ 1 ≤ 8) ∨ 1 = 16 ∨ 1 = 32) ∧ 1 ≤ 8 * 20 ∧ 20 ≤ Config.frameMax ∧
    ((1 ≤ 32 ∧ 32 ≤ 8) ∨ 32 = 16 ∨ 32 = 32) ∧ 32 ≤ 8 * 4 :=
  ⟨by decide, by decide, Config.frameMax_ge, by decide, by decide⟩
/-- An out-of-bounds read of buffer X, and an in-bounds one, as the next states they give. -/
theorem test_witness_BreadIsPureRead :
    (∃ t, exec (.bread 153 8 false) loaded = .next t) ∧ (∃ t, exec (.bread 152 8 false) loaded = .next t) :=
  ⟨⟨_, rfl⟩, _, rfl⟩
theorem test_witness_NarrowReadIgnoresByteOrder : 1 ≤ 1 ∧ 1 ≤ 8 ∧ 8 ≤ 8 := by decide
theorem test_witness_StatReadsStatus : 3 ≤ 3 ∧ 3 ≤ 7 := by decide
/-- A loaded block with RST next in the stream meets the invariant and steps. -/
theorem test_witness_StepKeepsInv :
    BlockInv { loaded with stream := [.command [0x07]] } ∧
    ∃ t, step { loaded with stream := [.command [0x07]] } = .next t := by
  refine ⟨⟨?_, ?_, ?_⟩, _, rfl⟩
  · intro c h; cases h
  · intro r h; cases h; exact bufX_fits
  · intro P h; cases h
theorem test_witness_FailedCommandWritesNothing :
    accept [0x08] both = .next (both.fail .eIllegalOp) ∧ Answered both (both.fail .eIllegalOp) [0x86] ∧
    failedResponse [0x86] = true :=
  ⟨rfl, ⟨rfl, rfl⟩, by decide⟩
theorem test_witness_FailureIsNotSticky :
    accept [0x05, 0, 0, 9, 0] loaded = .next (loaded.fail .eInvalidArg) ∧
    Answered loaded (loaded.fail .eInvalidArg) [0x82] ∧ failedResponse [0x82] = true :=
  ⟨rfl, ⟨rfl, rfl⟩, by decide⟩
/-- The same CENC once more, in the state the first one left. -/
theorem keyed_cenc_again :
    exec (.cenc plain20) (keyed.respond .ok (encryptFrame cipherA.skey cipherA.siv plain20)) =
      .next (State.respond .ok (encryptFrame cipherA.skey cipherA.siv plain20)
        (keyed.respond .ok (encryptFrame cipherA.skey cipherA.siv plain20))) :=
  transformCommand_ok (s := keyed.respond .ok (encryptFrame cipherA.skey cipherA.siv plain20)) (c := cipherA)
    encryptFrame (State.respond_cipher _ _ _) (by decide) plain20_fits

/-- The clauses of `CipherImmutable`: RST and CINIT change the unit, a failed CINIT answers an error, two successful
ones from different states, CENC twice, a step that changes the unit. -/
theorem test_witness_CipherImmutable :
    (∃ t, exec .rst keyed = .next t ∧ t.cipher ≠ keyed.cipher) ∧
    (∃ t, exec (.cinit keyA ivA saltA) State.reset = .next t ∧ t.cipher ≠ State.reset.cipher) ∧
    (∃ t P, exec (.cinit [] [] []) keyed = .next t ∧ Answered keyed t P ∧ failedResponse P = true) ∧
    (∃ t t', exec (.cinit keyA ivA saltA) State.reset = .next t ∧ exec (.cinit keyA ivA saltA) loaded = .next t') ∧
    (∃ t u P P', exec (.cenc plain20) keyed = .next t ∧ exec (.cenc plain20) t = .next u ∧ Answered keyed t P ∧
      Answered t u P') ∧
    (∃ t, step { keyed with stream := [.command [0x07]] } = .next t ∧ t.cipher ≠ keyed.cipher) :=
  ⟨⟨_, rfl, by decide⟩, ⟨_, test_cinit_key_set_a, by simp [keyed]⟩, ⟨_, _, rfl, ⟨rfl, rfl⟩, rfl⟩,
    ⟨_, _, test_cinit_key_set_a, rfl⟩,
    ⟨_, _, _, _, keyed_cenc, keyed_cenc_again, ⟨rfl, rfl⟩, ⟨rfl, rfl⟩⟩, _, rfl, by decide⟩
theorem test_witness_ReaderWrittenOnlyByBload :
    (∃ t, exec .rst loaded = .next t ∧ t.reader ≠ loaded.reader) ∧
    (∃ t, exec (.bload bufX) State.reset = .next t ∧ t.reader ≠ State.reset.reader) ∧
    (∃ t, step { loaded with stream := [.reset] } = .next t ∧ t.reader ≠ loaded.reader) :=
  ⟨⟨_, rfl, by decide⟩, ⟨_, test_bload, by decide⟩, _, rfl, by decide⟩
/-- The hypotheses of each clause of `DiagIsSticky`. -/
theorem test_witness_DiagIsSticky :
    (∃ t, exec .rst { loaded with diag := true } = .next t ∧ t.diag = false) ∧
    (∃ t, exec (.bread 153 8 false) loaded = .next t ∧ loaded.diag = false ∧ t.diag = true ∧
      Answered loaded t [0x01, 0x00, 0x00, 0x00, 0x00]) ∧
    (loaded.reader = some { buf := bufX } ∧ ((1 ≤ 8 ∧ 8 ≤ 8) ∨ 8 = 16 ∨ 8 = 32) ∧
      ((-1 : Int) < 0 ∨ 8 * ((ReaderUnit.mk bufX).len : Int) < -1 + ((8 : Nat) : Int))) ∧
    (∃ t, step { both with diag := true, stream := [.command [0x07]] } = .next t ∧ t.diag = false) ∧
    (∃ t, Instr.rst ≠ .stat ∧ exec .rst both = .next t) :=
  ⟨⟨_, rfl, rfl⟩, ⟨_, rfl, rfl, rfl, rfl, rfl⟩, by decide, ⟨_, rfl, rfl⟩, _, by decide, rfl⟩
theorem test_witness_UnitsAreIndependent :
    (∃ t, exec (.cinit keyA ivA saltA) State.reset = .next t) ∧ (∃ t, exec (.cenc plain20) keyed = .next t) ∧
    (∃ t, exec (.cdec wire20) State.reset = .next t) ∧ (∃ t, exec (.bload bufX) State.reset = .next t) ∧
    (∃ t, exec (.bread 153 8 false) both = .next t) :=
  ⟨⟨_, test_cinit_key_set_a⟩, ⟨_, keyed_cenc⟩, ⟨_, rfl⟩, ⟨_, test_bload⟩, _, rfl⟩
/-- Two constructed states with different keys, and a STAT frame. -/
theorem test_witness_KeyIsNotReadOut :
    SameButKey keyed { keyed with cipher := some { cipherA with skey := cipherA.siv } } ∧
    (∀ d, decode [0x06] ≠ .ok (.cenc d) ∧ decode [0x06] ≠ .ok (.cdec d)) ∧
    keyed ≠ { keyed with cipher := some { cipherA with skey := cipherA.siv } } := by
  refine ⟨⟨rfl, rfl, rfl, rfl, rfl⟩, fun d => ⟨?_, ?_⟩, by decide⟩ <;>
  · rw [test_decode_stat]; intro h; cases h
theorem test_witness_ResponseByCommand :
    decode [] = .error .malformed ∧ decode [0x08] = .error .illegalOp := by decide
theorem test_witness_AssembledLineDecodes :
    (Asm.Line.bread 47 16 (some .le)).legal = true ∧ (Asm.Line.bread 32767 8 none).legal = true ∧
    (Asm.Line.bread 47 16 none).legal = false ∧ (Asm.Line.bread 32768 8 none).legal = false ∧
    (Asm.parseLine ['S', 'T', 'A', 'T'] = some .stat ∧ Asm.Line.stat.legal = true) ∧
    (16 = 16 ∨ 16 = 32) ∧ (8 ≠ 16 ∧ 8 ≠ 32) := by decide
theorem test_witness_GenTwoRequestsFit : (143, 16) ∈ Gen2.requests ∧ (0, 4) ∈ Gen2.requests := by decide

end Sys2Proof.Tests
end

section
/-! PROOFS. The reader's bit space as the spec writes it out (rule R8). -/

namespace Sys2Proof.Machine

/-- Inside the buffer a bit address names a bit of an existing byte (rule R8). -/
theorem bitAt_eq_getLsbD (X : List Byte) (k : Nat) (h : k / 8 < X.length) :
    bitAt X k = X[k / 8].getLsbD (7 - k % 8) := by
  rw [bitAt, ← List.getElem_eq_getD]

@[simp] theorem bits_length (X : List Byte) (s n : Nat) : (bits X s n).length = n := by
  simp [bits]

theorem bits_getElem? (X : List Byte) (s : Nat) {n j : Nat} (h : j < n) :
    (bits X s n)[j]? = some (bitAt X (s + j)) := by
  simp [bits, h]

/-- The recurrence `ubits_succ` unrolled: appending a bit doubles the weight of every bit before it. -/
theorem ubits_eq_sum (X : List Byte) (s n : Nat) :
    ubits X s n = ∑ j ∈ Finset.range n, (bitAt X (s + j)).toNat * 2 ^ (n - 1 - j) := by
  induction n with
  | zero => simp
  | succ n ih =>
    have weight_doubles : ∀ j ∈ Finset.range n,
        2 * ((bitAt X (s + j)).toNat * 2 ^ (n - 1 - j)) = (bitAt X (s + j)).toNat * 2 ^ (n - j) := by
      intro j hj
      have hexp : n - j = n - 1 - j + 1 := by
        have := Finset.mem_range.mp hj
        omega
      rw [hexp, Nat.pow_succ]
      ring
    rw [ubits_succ, ih, Finset.mul_sum, Finset.sum_congr rfl weight_doubles, Finset.sum_range_succ]
    simp

/-- Settles O33: each clause is the rule of one function of the bit space; the sum is by induction on the width. -/
theorem ubitsIsBitSum : Obligations.UbitsIsBitSum :=
  ⟨bitAt_eq_getLsbD, fun X s n => ⟨bits_length X s n, fun _ => bits_getElem? X s⟩, ubits_eq_sum⟩

end Sys2Proof.Machine
end

section
/-! PROOFS. What a command and a step can write, said once: the layer the statements about the state rest on. -/

namespace Sys2Proof.Machine

variable {s t : State}

/-! ### Responses -/

/-- A command gives one response frame (rule R58). -/
theorem Answered.unique {P P' : Frame} (h : Answered s t P) (h' : Answered s t P') : P = P' :=
  (List.cons.inj (h.1.symm.trans h'.1)).1

theorem answered_respond (s : State) (st : Status) (payload : List Byte) :
    Answered s (s.respond st payload) (st.code :: payload) := ⟨rfl, rfl⟩

/-! ### Where a command is performed, where it is refused -/

theorem execCinit_ok {key iv salt : List Byte} (s : State)
    (h : key.length = 16 ∧ iv.length = 16 ∧ salt.length = 6) :
    execCinit key iv salt s = .next ((s.constructCipher (salt16 (toBlock key) (toSalt salt))
      (salt16 (toBlock iv) (toSalt salt))).respond .ok []) :=
  if_pos ((cinitLengthsOk_iff key iv salt).2 h)

theorem execCinit_refused {key iv salt : List Byte} (s : State)
    (h : ¬ (key.length = 16 ∧ iv.length = 16 ∧ salt.length = 6)) :
    execCinit key iv salt s = .next (s.fail .eValidation) :=
  if_neg (mt (cinitLengthsOk_iff key iv salt).1 h)

theorem execBload_refused {data : List Byte} (s : State) (h : Config.frameMax < data.length) :
    execBload data s = .next (s.fail .eCapacity) :=
  if_pos ((tooLong_iff data).2 h)

/-- An out-of-bounds BREAD of a legal length (rules R16, R96). -/
theorem execBread_outOfBounds {r : ReaderUnit} {start : Int} {n : Nat} (le : Bool) (hr : s.reader = some r)
    (hn : legalBitLength n = true) (hb : inBounds start n r.len = false) :
    execBread start n le s = .next (s.raiseDiag.respond .okOob (valueBytes 0)) := by
  simp [execBread, hr, hn, hb]

/-! ### What a command reads: its answer is fixed by the unit it works on -/

/-- The response of CENC and CDEC is a function of the cipher unit and the data, and they write nothing else
(rules R12, R77, R80). -/
theorem transformCommand_of_cipher (f : Block → Block → List Byte → List Byte) (data : List Byte)
    (c : Option CipherUnit) :
    ∃ st payload, ∀ s : State, s.cipher = c → transformCommand f data s = .next (s.respond st payload) := by
  cases c with
  | none => exact ⟨.eNotReady, [], fun s hc => by simp [transformCommand, hc, State.fail]⟩
  | some c =>
    by_cases hs : tooShort data = true
    · exact ⟨.eValidation, [], fun s hc => by simp [transformCommand, hc, hs, State.fail]⟩
    by_cases hl : tooLong data = true
    · exact ⟨.eCapacity, [], fun s hc => by simp [transformCommand, hc, hs, hl, State.fail]⟩
    · exact ⟨.ok, f c.skey c.siv data, fun s hc => by simp [transformCommand, hc, hs, hl]⟩

/-- Whether BREAD sets `DIAG`, and its response, are a function of the reader unit and the operands; it writes
nothing else (rules R92, R100). -/
theorem execBread_of_reader (start : Int) (n : Nat) (le : Bool) (r : Option ReaderUnit) :
    (∃ st payload, ∀ s : State, s.reader = r → execBread start n le s = .next (s.respond st payload)) ∨
    ∀ s : State, s.reader = r → execBread start n le s = .next (s.raiseDiag.respond .okOob (valueBytes 0)) := by
  cases r with
  | none => exact .inl ⟨.eNotReady, [], fun s hr => by simp [execBread, hr, State.fail]⟩
  | some r =>
    by_cases hn : legalBitLength n = true
    · by_cases hb : inBounds start n r.len = true
      · exact .inl ⟨.ok, valueBytes (zext32 (fieldValue r.buf start.toNat n le)),
          fun s hr => by simp [execBread, hr, hn, hb]⟩
      · exact .inr fun s hr => execBread_outOfBounds le hr hn (by simpa using hb)
    · exact .inl ⟨.eInvalidArg, [], fun s hr => by simp [execBread, hr, hn, State.fail]⟩

/-! ### What a command does not read -/

/-- Apart from STAT no command reads `DIAG` (rule R16). -/
theorem exec_withDiag {i : Instr} (b : Bool) (hi : i ≠ .stat) (h : exec i s = .next t) :
    ∃ u, exec i { s with diag := b } = .next u ∧ u.responses = t.responses ∧ u.cipher = t.cipher ∧
      u.reader = t.reader := by
  have transform_alike (f data) (hf : transformCommand f data s = .next t) :
      ∃ u, transformCommand f data { s with diag := b } = .next u ∧ u.responses = t.responses ∧
        u.cipher = t.cipher ∧ u.reader = t.reader := by
    obtain ⟨st, payload, hc⟩ := transformCommand_of_cipher f data s.cipher
    cases (hc s rfl).symm.trans hf
    exact ⟨_, hc _ rfl, rfl, rfl, rfl⟩
  cases i with
  | cinit key iv salt =>
    obtain ⟨hlen, rfl⟩ | ⟨hlen, rfl⟩ := execCinit_cases h
    · exact ⟨_, execCinit_ok _ hlen, rfl, rfl, rfl⟩
    · exact ⟨_, execCinit_refused _ hlen, rfl, rfl, rfl⟩
  | cenc data => exact transform_alike encryptFrame data h
  | cdec data => exact transform_alike decryptFrame data h
  | bload data =>
    obtain ⟨hlen, rfl⟩ | ⟨hlen, rfl⟩ := execBload_cases h
    · exact ⟨_, execBload_refused _ hlen, rfl, rfl, rfl⟩
    · exact ⟨_, execBload_ok _ hlen, rfl, rfl, rfl⟩
  | bread start n le =>
    obtain ⟨st, payload, hr⟩ | hr := execBread_of_reader start n le s.reader
    all_goals
      cases (hr s rfl).symm.trans h
      exact ⟨_, hr _ rfl, rfl, rfl, rfl⟩
  | stat => exact absurd rfl hi
  | rst => cases h; exact ⟨_, rfl, rfl, rfl, rfl⟩

/-- CENC and CDEC neither read nor write the reader unit (rule R15). -/
theorem transformCommand_withReader {f : Block → Block → List Byte → List Byte} {data : List Byte}
    (r : Option ReaderUnit) (h : transformCommand f data s = .next t) :
    t.reader = s.reader ∧ transformCommand f data { s with reader := r } = .next { t with reader := r } := by
  obtain ⟨st, payload, hc⟩ := transformCommand_of_cipher f data s.cipher
  cases (hc s rfl).symm.trans h
  exact ⟨rfl, hc _ rfl⟩

/-- CINIT neither reads nor writes the reader unit (rule R15). -/
theorem execCinit_withReader {key iv salt : List Byte} (r : Option ReaderUnit)
    (h : execCinit key iv salt s = .next t) :
    t.reader = s.reader ∧ execCinit key iv salt { s with reader := r } = .next { t with reader := r } := by
  obtain ⟨hlen, rfl⟩ | ⟨hlen, rfl⟩ := execCinit_cases h
  · exact ⟨rfl, execCinit_ok _ hlen⟩
  · exact ⟨rfl, execCinit_refused _ hlen⟩

/-- BLOAD neither reads nor writes the cipher unit (rule R15). -/
theorem execBload_withCipher {data : List Byte} (c : Option CipherUnit)
    (h : execBload data s = .next t) :
    t.cipher = s.cipher ∧ execBload data { s with cipher := c } = .next { t with cipher := c } := by
  obtain ⟨hlen, rfl⟩ | ⟨hlen, rfl⟩ := execBload_cases h
  · exact ⟨rfl, execBload_refused _ hlen⟩
  · exact ⟨rfl, execBload_ok _ hlen⟩

/-- BREAD neither reads nor writes the cipher unit (rule R15). -/
theorem execBread_withCipher {start : Int} {n : Nat} {le : Bool} (c : Option CipherUnit)
    (h : execBread start n le s = .next t) :
    t.cipher = s.cipher ∧ execBread start n le { s with cipher := c } = .next { t with cipher := c } := by
  obtain ⟨st, payload, hr⟩ | hr := execBread_of_reader start n le s.reader
  all_goals
    cases (hr s rfl).symm.trans h
    exact ⟨rfl, hr _ rfl⟩

/-! ### What a command writes -/

/-- The five things a command can do to the block's own state, each with its response (rules R12, R14, R16):
four commands write it, everything else only answers. -/
inductive Performs (s : State) : Instr → State → Prop where
  | answer (i : Instr) (st : Status) (payload : List Byte) : Performs s i (s.respond st payload)
  | cinit {key iv salt : List Byte} (hlen : key.length = 16 ∧ iv.length = 16 ∧ salt.length = 6) :
      Performs s (.cinit key iv salt) ((s.constructCipher (salt16 (toBlock key) (toSalt salt))
        (salt16 (toBlock iv) (toSalt salt))).respond .ok [])
  | bload {data : List Byte} (hlen : data.length ≤ Config.frameMax) :
      Performs s (.bload data) ((s.loadReader data).respond .ok [])
  | breadOutOfBounds (start : Int) (n : Nat) (le : Bool) :
      Performs s (.bread start n le) (s.raiseDiag.respond .okOob (valueBytes 0))
  | rst : Performs s .rst (s.clearUnits.respond .ok [])

/-- CENC and CDEC only answer (rule R12). -/
theorem performs_of_transformCommand {f : Block → Block → List Byte → List Byte} {data : List Byte}
    (i : Instr) (h : transformCommand f data s = .next t) : Performs s i t := by
  obtain ⟨st, payload, hf⟩ := transformCommand_of_cipher f data s.cipher
  cases (hf s rfl).symm.trans h
  exact .answer i st payload

/-- Every command does one of these five things. -/
theorem exec_performs {i : Instr} (h : exec i s = .next t) : Performs s i t := by
  cases i with
  | cinit key iv salt =>
    obtain ⟨hlen, rfl⟩ | ⟨-, rfl⟩ := execCinit_cases h
    · exact .cinit hlen
    · exact .answer _ .eValidation []
  | cenc data => exact performs_of_transformCommand _ h
  | cdec data => exact performs_of_transformCommand _ h
  | bload data =>
    obtain ⟨-, rfl⟩ | ⟨hlen, rfl⟩ := execBload_cases h
    · exact .answer _ .eCapacity []
    · exact .bload hlen
  | bread start n le =>
    obtain ⟨st, payload, hr⟩ | hr := execBread_of_reader start n le s.reader
    · cases (hr s rfl).symm.trans h
      exact .answer _ st payload
    · cases (hr s rfl).symm.trans h
      exact .breadOutOfBounds start n le
  | stat => cases h; exact .answer _ .ok [s.statusByte]
  | rst => cases h; exact .rst

/-- A command that writes the cipher unit (rule R12). -/
theorem exec_cipher_ne {i : Instr} (h : exec i s = .next t) (hne : t.cipher ≠ s.cipher) :
    i = .rst ∨ ∃ key iv salt, i = .cinit key iv salt ∧ key.length = 16 ∧ iv.length = 16 ∧ salt.length = 6 ∧
      Answered s t [0x00] := by
  cases exec_performs h with
  | rst => exact .inl rfl
  | cinit hlen =>
    obtain ⟨hkey, hiv, hsalt⟩ := hlen
    exact .inr ⟨_, _, _, rfl, hkey, hiv, hsalt, rfl, rfl⟩
  | answer | bload | breadOutOfBounds => exact absurd rfl hne

/-- A command that writes the reader unit (rules R13, R14). -/
theorem exec_reader_ne {i : Instr} (h : exec i s = .next t) (hne : t.reader ≠ s.reader) :
    i = .rst ∨ ∃ data, i = .bload data ∧ data.length ≤ Config.frameMax ∧ Answered s t [0x00] := by
  cases exec_performs h with
  | rst => exact .inl rfl
  | bload hlen => exact .inr ⟨_, rfl, hlen, rfl, rfl⟩
  | answer | cinit | breadOutOfBounds => exact absurd rfl hne

/-- The one command that clears `DIAG` (rule R16). -/
theorem exec_clears_diag {i : Instr} (h : exec i s = .next t) (hs : s.diag = true) (ht : t.diag = false) :
    i = .rst := by
  cases exec_performs h with
  | rst => rfl
  | breadOutOfBounds => cases ht
  | answer | cinit | bload => exact absurd (hs.symm.trans ht) (by decide)

/-- The one command that sets `DIAG`, and its response (rules R16, R96). -/
theorem exec_sets_diag {i : Instr} (h : exec i s = .next t) (hs : s.diag = false) (ht : t.diag = true) :
    ∃ start n le, i = .bread start n le ∧ Answered s t [0x01, 0x00, 0x00, 0x00, 0x00] := by
  cases exec_performs h with
  | breadOutOfBounds start n le => exact ⟨start, n, le, rfl, rfl, rfl⟩
  | rst => cases ht
  | answer | cinit | bload => exact absurd (hs.symm.trans ht) (by decide)

/-! ### What a step writes -/

/-- A step with a command frame next hands it to the port (rules R18, R41). -/
theorem step_command {Q : Frame} {rest : List HostAct} (hs : s.stream = .command Q :: rest) :
    step s = accept Q { s with stream := rest } := by
  simp [step, nextAct, hs, hostAct]

/-- A step leaves the block's own state as it is, or performs reset, or runs a command (rules R40, R177, R190). -/
theorem step_writes (h : step s = .next t) :
    UnitsUnchanged s t ∨ ∃ a rest, s.stream = a :: rest ∧
      (a = .reset ∨ (∃ Q, a = .commandThenReset Q) ∨
       ∃ Q, a = .command Q ∧ ∃ i, decode Q = .ok i ∧ exec i { s with stream := rest } = .next t) := by
  obtain ⟨-, ht⟩ | ⟨Q, rest, hs, ht⟩ | ⟨a, rest, hs, ha, -⟩ := step_cases h
  · cases ht
    exact .inl ⟨rfl, rfl, rfl⟩
  · obtain ⟨i, hi, he⟩ | ⟨e, -, he⟩ := accept_cases ht.symm
    · exact .inr ⟨_, rest, hs, .inr (.inr ⟨Q, rfl, i, hi, he.symm⟩)⟩
    · cases he
      exact .inl ⟨rfl, rfl, rfl⟩
  · exact .inr ⟨a, rest, hs, ha.imp_right .inl⟩

end Sys2Proof.Machine
end

section
/-! PROOFS. The leading block of an encrypted frame, as far as the tail pass leaves it (rules R78, R84). -/

namespace Sys2Proof.Machine

/-- The first block of a frame is made of its first 16 bytes. -/
theorem blockAt_zero_congr {F G : List Byte} (h : F.take 16 = G.take 16) : blockAt F 0 = blockAt G 0 := by
  apply Vector.ext
  intro i hi
  have hget : F[i]? = G[i]? := by
    rw [← List.getElem?_take_of_lt hi, h, List.getElem?_take_of_lt hi]
  simp [blockAt, hget]

/-- A pass over the leading block leaves its result in the first 16 bytes (rule R9). -/
theorem passAt_zero_take (f : Block → Block) (F : List Byte) {n : Nat} (hn : n ≤ 16) :
    (passAt f 0 F).take n = (f (blockAt F 0)).toList.take n := by
  simp [passAt, putBlock, List.take_append_of_le_length, hn]

/-- A pass leaves the bytes before its index as they are (rule R9). -/
theorem passAt_take (f : Block → Block) {a n : Nat} (F : List Byte) (hn : n ≤ a) (ha : a ≤ F.length) :
    (passAt f a F).take n = F.take n := by
  have hlen : n ≤ (F.take a).length := by simp; omega
  rw [passAt, putBlock, List.append_assoc, List.take_append_of_le_length hlen, List.take_take,
    Nat.min_eq_left hn]

/-- The leading ciphertext bytes which the tail pass does not reach are the first block's CBC (rule R78). -/
theorem encryptFrame_take (K IV : Block) {F : List Byte} {n : Nat} (hF : 16 ≤ F.length) (hn : n ≤ 16)
    (htail : 16 < F.length → n ≤ F.length - 16) :
    (encryptFrame K IV F).take n = (cbc1Encrypt K IV (blockAt F 0)).toList.take n := by
  have hlen : (passAt (cbc1Encrypt K IV) 0 F).length = F.length := passAt_length _ 0 F (by omega)
  unfold encryptFrame
  split
  · next hlong => rw [passAt_take _ _ (htail hlong) (by omega), passAt_zero_take _ F hn]
  · exact passAt_zero_take _ F hn

/-- Two frames of one length and one leading block agree on those bytes of ciphertext (rule R84). -/
theorem encryptFrame_take_congr (K IV : Block) {F G : List Byte} {n : Nat} (hlen : F.length = G.length)
    (hF : 16 ≤ F.length) (hFG : F.take 16 = G.take 16) (hn : n ≤ 16)
    (htail : 16 < F.length → n ≤ F.length - 16) :
    (encryptFrame K IV F).take n = (encryptFrame K IV G).take n := by
  rw [encryptFrame_take K IV hF hn htail, encryptFrame_take K IV (hlen ▸ hF) hn (hlen ▸ htail),
    blockAt_zero_congr hFG]

end Sys2Proof.Machine
end

section
/-! PROOFS. The bits of STATUS (rule R20). -/

namespace Sys2Proof.Machine

/-- STATUS has three fields of one bit each, so its value is below 8 (rule R20). -/
theorem statusByte_lt (s : State) : s.statusByte.toNat < 8 := by
  unfold State.statusByte
  generalize s.cValid = c, s.bValid = b, s.diag = d
  revert c b d
  decide

/-- Bits 0, 1 and 2 of STATUS are `C.valid`, `B.valid` and `DIAG` (rule R20). -/
theorem statusByte_fields (s : State) :
    s.statusByte.getLsbD 0 = s.cValid ∧ s.statusByte.getLsbD 1 = s.bValid ∧ s.statusByte.getLsbD 2 = s.diag := by
  unfold State.statusByte
  generalize s.cValid = c, s.bValid = b, s.diag = d
  revert c b d
  decide

/-- Bits 7:3 of STATUS read as 0 (rules R20, R60). -/
theorem statusByte_reserved (s : State) {k : Nat} (hk : 3 ≤ k) : s.statusByte.getLsbD k = false := by
  have hpow : 2 ^ 3 ≤ 2 ^ k := Nat.pow_le_pow_right (by decide) hk
  exact Nat.testBit_lt_two_pow ((statusByte_lt s).trans_le hpow)

end Sys2Proof.Machine
end

section
/-! PROOFS. The statements about the state (spec file 10). -/

namespace Sys2Proof.Machine

/-- Settles O30: the response is a function of the cipher unit, and the tail pass leaves the first `n − 16` bytes. -/
theorem transformDeterministic : Obligations.TransformDeterministic := by
  refine ⟨fun data s t i hi hc => ?_, fun K IV F G hlen hF hFG => ⟨fun hn => ?_, fun _ hn => ?_⟩⟩
  · have answers_alike (f) : ∃ s' t' P, transformCommand f data s = .next s' ∧
        transformCommand f data t = .next t' ∧ Answered s s' P ∧ Answered t t' P ∧
        s'.cipher = s.cipher ∧ t'.cipher = t.cipher := by
      obtain ⟨st, payload, hf⟩ := transformCommand_of_cipher f data t.cipher
      exact ⟨_, _, _, hf s hc, hf t rfl, answered_respond s st payload, answered_respond t st payload,
        rfl, rfl⟩
    obtain rfl | rfl := hi
    · exact answers_alike encryptFrame
    · exact answers_alike decryptFrame
  · exact encryptFrame_take_congr K IV hlen hF hFG le_rfl (by omega)
  · exact encryptFrame_take_congr K IV hlen hF hFG (by omega) (fun _ => le_rfl)

/-- Settles O51: by what each command writes, and by what CENC reads. -/
theorem cipherImmutable : Obligations.CipherImmutable := by
  refine ⟨fun i s t => exec_cipher_ne, ?failed, ?replaced, ?repeated, ?stepped⟩
  case failed =>
    intro key iv salt s t P h hP hfail
    obtain ⟨-, rfl⟩ | ⟨-, rfl⟩ := execCinit_cases h
    · cases hP.unique ⟨rfl, rfl⟩
      exact absurd hfail (by decide)
    · rfl
  case replaced =>
    intro key iv salt s s' t t' hkey hiv hsalt h h'
    cases (execCinit_ok s ⟨hkey, hiv, hsalt⟩).symm.trans h
    cases (execCinit_ok s' ⟨hkey, hiv, hsalt⟩).symm.trans h'
    rfl
  case repeated =>
    intro data s t u P P' h h' hP hP'
    obtain ⟨st, payload, hf⟩ := transformCommand_of_cipher encryptFrame data s.cipher
    cases (hf s rfl).symm.trans h
    cases (hf (s.respond st payload) rfl).symm.trans h'
    exact (hP.unique (answered_respond _ st payload)).trans ((answered_respond _ st payload).unique hP')
  case stepped =>
    intro s t h hne
    obtain ⟨hc, -⟩ | ⟨a, rest, hs, ha⟩ := step_writes h
    · exact absurd hc hne
    refine ⟨a, rest, hs, ha.imp_right (.imp_right ?_)⟩
    rintro ⟨Q, rfl, i, hi, he⟩
    obtain rfl | ⟨key, iv, salt, rfl, hkey, hiv, hsalt, -⟩ := exec_cipher_ne he hne
    · exact ⟨Q, rfl, .inl hi⟩
    · exact ⟨Q, rfl, .inr ⟨key, iv, salt, hi, hkey, hiv, hsalt⟩⟩

/-- Settles O52: by what each command writes. -/
theorem readerWrittenOnlyByBload : Obligations.ReaderWrittenOnlyByBload := by
  refine ⟨fun i s t => exec_reader_ne, fun s t h hne => ?_⟩
  obtain ⟨-, hr, -⟩ | ⟨a, rest, hs, ha⟩ := step_writes h
  · exact absurd hr hne
  refine ⟨a, rest, hs, ha.imp_right (.imp_right ?_)⟩
  rintro ⟨Q, rfl, i, hi, he⟩
  obtain rfl | ⟨data, rfl, hlen, -⟩ := exec_reader_ne he hne
  · exact ⟨Q, rfl, .inl hi⟩
  · exact ⟨Q, rfl, .inr ⟨data, hi, hlen⟩⟩

/-- Settles O53: by what each command writes to `DIAG`, and that none but STAT reads it. -/
theorem diagIsSticky : Obligations.DiagIsSticky := by
  refine ⟨fun i s t => exec_clears_diag, fun i s t => exec_sets_diag, ?outOfBounds, fun s => ⟨_, rfl, rfl⟩,
    fun s => ⟨_, rfl, rfl⟩, ?stepped, fun i s t b => exec_withDiag b⟩
  case outOfBounds =>
    intro s r start n le hr hn hb
    have hb' : inBounds start n r.len = false := by
      rw [← Bool.not_eq_true, inBounds_iff]
      omega
    exact ⟨_, execBread_outOfBounds le hr ((legalBitLength_iff n).2 hn) hb', rfl, rfl, rfl⟩
  case stepped =>
    intro s t h hs ht
    obtain ⟨-, -, hd⟩ | ⟨a, rest, hstream, ha⟩ := step_writes h
    · exact absurd (hd.symm.trans ht) (by simp [hs])
    refine ⟨a, rest, hstream, ha.imp_right (.imp_right ?_)⟩
    rintro ⟨Q, rfl, i, hi, he⟩
    cases exec_clears_diag he hs ht
    exact ⟨Q, rfl, hi⟩

/-- Settles O54: command by command, each with what it reads and writes. -/
theorem unitsAreIndependent : Obligations.UnitsAreIndependent := by
  constructor
  · rintro i s t r h (⟨key, iv, salt, rfl⟩ | ⟨data, rfl⟩ | ⟨data, rfl⟩)
    · exact execCinit_withReader r h
    · exact transformCommand_withReader (f := encryptFrame) r h
    · exact transformCommand_withReader (f := decryptFrame) r h
  · rintro i s t c h (⟨data, rfl⟩ | ⟨start, n, le, rfl⟩)
    · exact execBload_withCipher c h
    · exact execBread_withCipher c h

/-- Settles O9: the step hands the frame to the port, which runs what it decodes to. -/
theorem stepRunsDecodedCommand : Obligations.StepRunsDecodedCommand :=
  fun _ _ _ _ hs hi => (step_command hs).trans (accept_ok _ hi)

/-- Settles O43: STAT answers the STATUS byte, whose bits are its fields. -/
theorem statReadsStatus : Obligations.StatReadsStatus := by
  refine ⟨rfl, fun s => ?_⟩
  obtain ⟨hc, hb, hd⟩ := statusByte_fields s
  exact ⟨_, s.statusByte, rfl, answered_respond s .ok _, hc, hb, hd, fun _ => statusByte_reserved s,
    ⟨rfl, rfl, rfl⟩, rfl, fun _ => rfl⟩

/-- Settles O45: the fields of the reset state. -/
theorem resetValues : Obligations.ResetValues := ⟨rfl, rfl, rfl, rfl, rfl, rfl⟩

/-- Settles O46: at reset no unit holds a value and no response has been given. -/
theorem invAtReset : Obligations.InvAtReset := by
  refine ⟨fun c hc => ?_, readerFits_reset, fun P hP => ?_⟩
  · cases hc
  · cases hP

end Sys2Proof.Machine
end

section
/-! PROOFS. Fields of the bit space against the bytes they are cut from (rules R31, R33, R34). -/

namespace Sys2Proof.Machine

/-- A bit of a byte, as a number. -/
theorem bitAt_toNat (X : List Byte) (q : Nat) {k : Nat} (hk : k < 8) :
    (bitAt X (8 * q + k)).toNat = (X.getD q 0).toNat / 2 ^ (7 - k) % 2 := by
  have hq : (8 * q + k) / 8 = q := by omega
  have hr : (8 * q + k) % 8 = k := by omega
  rw [bitAt, hq, hr, BitVec.getLsbD, Nat.toNat_testBit]

/-- A field from the start of a byte is the byte's high bits (rule R31). -/
theorem ubits_high_of_byte (X : List Byte) (q : Nat) {k : Nat} (hk : k ≤ 8) :
    ubits X (8 * q) k = (X.getD q 0).toNat / 2 ^ (8 - k) := by
  induction k with
  | zero => exact (Nat.div_eq_of_lt (X.getD q 0).isLt).symm
  | succ k ih =>
    have hexp : 8 - k = 7 - k + 1 := by omega
    rw [ubits_succ, ih (by omega), bitAt_toNat X q (by omega), hexp, Nat.pow_succ, ← Nat.div_div_eq_div_mul,
      Nat.div_add_mod]
    congr 2
    omega

/-- A field up to the end of a byte is the byte's low bits (rule R31): what the high bits leave of it. -/
theorem ubits_low_of_byte (X : List Byte) (q : Nat) {k : Nat} (hk : k ≤ 8) :
    ubits X (8 * q + k) (8 - k) = (X.getD q 0).toNat % 2 ^ (8 - k) := by
  have hbyte : ubits X (8 * q) 8 = (X.getD q 0).toNat := by
    simpa using ubits_high_of_byte X q le_rfl
  have hsplit := ubits_add X (8 * q) k (8 - k)
  rw [Nat.add_sub_cancel' hk, hbyte] at hsplit
  rw [hsplit, Nat.mul_add_mod_self_right, Nat.mod_eq_of_lt (ubits_lt _ _ _)]

/-- An 8-bit field that begins `k` bits into a byte: its low bits, then the high bits of the next (rule R34). -/
theorem ubits_straddle (X : List Byte) (q : Nat) {k : Nat} (hk : k ≤ 8) :
    ubits X (8 * q + k) 8 =
      (X.getD q 0).toNat % 2 ^ (8 - k) * 2 ^ k + (X.getD (q + 1) 0).toNat / 2 ^ (8 - k) := by
  have hsplit := ubits_add X (8 * q + k) (8 - k) k
  have hnext : 8 * q + k + (8 - k) = 8 * (q + 1) := by omega
  rwa [Nat.sub_add_cancel hk, hnext, ubits_low_of_byte X q hk, ubits_high_of_byte X (q + 1) hk] at hsplit

/-- Least significant group first is most significant group first on the reversed groups (rule R33). -/
theorem littleEndianValue_eq (gs : List Nat) : littleEndianValue gs = bigEndianValue gs.reverse := by
  simp only [littleEndianValue, bigEndianValue, List.foldl_reverse, Nat.add_comm, Nat.mul_comm]

theorem bigEndianValue_zero_cons (gs : List Nat) : bigEndianValue (0 :: gs) = bigEndianValue gs := by
  simp [bigEndianValue]

/-- A field of 16 or 32 bits is its groups in the order asked for (rules R33, R98). -/
theorem fieldValue_wide (X : List Byte) (s : Nat) {n : Nat} (le : Bool) (hn : 8 < n) :
    fieldValue X s n le =
      bigEndianValue (if le then (byteGroups X s (n / 8)).reverse else byteGroups X s (n / 8)) := by
  rw [fieldValue, if_neg (by omega)]
  cases le
  · rfl
  · exact littleEndianValue_eq _

/-- A 16-bit field is its two groups in the order asked for (rule R33). -/
theorem fieldValue_16 (X : List Byte) (s : Nat) (le : Bool) :
    let g := fun j => ubits X (s + 8 * j) 8
    fieldValue X s 16 le = bigEndianValue (if le then [g 1, g 0] else [g 0, g 1]) := by
  rw [fieldValue_wide X s le (by decide)]
  rfl

/-- A 32-bit field is its four groups in the order asked for (rule R33). -/
theorem fieldValue_32 (X : List Byte) (s : Nat) (le : Bool) :
    let g := fun j => ubits X (s + 8 * j) 8
    fieldValue X s 32 le = bigEndianValue (if le then [g 3, g 2, g 1, g 0] else [g 0, g 1, g 2, g 3]) := by
  rw [fieldValue_wide X s le (by decide)]
  rfl

/-- The little-endian 16-bit value is the byte swap of the big-endian one (rule R34). -/
theorem fieldValue_16_byteSwap (X : List Byte) (s : Nat) :
    fieldValue X s 16 true = fieldValue X s 16 false % 256 * 256 + fieldValue X s 16 false / 256 := by
  have g_lt := ubits_lt X (s + 8 * 1) 8
  rw [fieldValue_16, fieldValue_16]
  simp only [bigEndianValue, List.foldl, Bool.false_eq_true, if_true, if_false]
  omega

/-- The payload of a value made of four bytes is those bytes (rules R35, R58). -/
theorem valueBytes_bigEndianValue {a b c d : Nat} (hb : b < 256) (hc : c < 256) (hd : d < 256) :
    valueBytes (zext32 (bigEndianValue [a, b, c, d])) = [a, b, c, d].map (BitVec.ofNat 8) := by
  simp only [valueBytes, zext32, bigEndianValue, List.foldl_cons, List.foldl_nil, List.map_cons, List.map_nil,
    List.cons.injEq, and_true, BitVec.toNat_eq, BitVec.extractLsb'_toNat, BitVec.toNat_ofNat,
    Nat.shiftRight_eq_div_pow]
  omega

/-- The payload of a 16-bit read: two zero bytes, then the groups (rules R33, R58). -/
theorem valueBytes_fieldValue_16 (X : List Byte) (s : Nat) (le : Bool) :
    let g := fun j => BitVec.ofNat 8 (ubits X (s + 8 * j) 8)
    valueBytes (zext32 (fieldValue X s 16 le)) = 0x00 :: 0x00 :: (if le then [g 1, g 0] else [g 0, g 1]) := by
  have g_lt (j) : ubits X (s + 8 * j) 8 < 256 := ubits_lt X _ 8
  rw [fieldValue_16, ← bigEndianValue_zero_cons, ← bigEndianValue_zero_cons]
  cases le
  · exact valueBytes_bigEndianValue (by decide) (g_lt 0) (g_lt 1)
  · exact valueBytes_bigEndianValue (by decide) (g_lt 1) (g_lt 0)

/-- The payload of a 32-bit read is its groups (rules R33, R58). -/
theorem valueBytes_fieldValue_32 (X : List Byte) (s : Nat) (le : Bool) :
    let g := fun j => BitVec.ofNat 8 (ubits X (s + 8 * j) 8)
    valueBytes (zext32 (fieldValue X s 32 le)) = if le then [g 3, g 2, g 1, g 0] else [g 0, g 1, g 2, g 3] := by
  have g_lt (j) : ubits X (s + 8 * j) 8 < 256 := ubits_lt X _ 8
  rw [fieldValue_32]
  cases le
  · exact valueBytes_bigEndianValue (g_lt 1) (g_lt 2) (g_lt 3)
  · exact valueBytes_bigEndianValue (g_lt 2) (g_lt 1) (g_lt 0)

end Sys2Proof.Machine
end

section
/-! PROOFS. BREAD and its bounds test (rules R39, R92). -/

namespace Sys2Proof.Machine

theorem inBounds_eq_false_iff (start : Int) (n len : Nat) :
    inBounds start n len = false ↔ start < 0 ∨ 8 * (len : Int) < start + n := by
  rw [← Bool.not_eq_true, inBounds_iff]
  omega

/-- An in-bounds BREAD of a legal length answers the field's value and writes no state (rules R92, R97, R98). -/
theorem exec_bread_inBounds {s : State} {r : ReaderUnit} {start n : Nat} (le : Bool) (hr : s.reader = some r)
    (hn : legalBitLength n = true) (hb : start + n ≤ 8 * r.len) :
    ∃ t, exec (.bread start n le) s = .next t ∧
      Answered s t (0x00 :: valueBytes (zext32 (fieldValue r.buf start n le))) ∧
      UnitsUnchanged s t ∧ BufferUnchanged s t := by
  have hin : inBounds start n r.len = true := (inBounds_iff _ _ _).2 (by omega)
  exact ⟨_, by simp [exec, execBread, hr, hn, hin], answered_respond s .ok _, ⟨rfl, rfl, rfl⟩,
    rfl, fun _ => rfl⟩

end Sys2Proof.Machine
end

section
/-! PROOFS. The statements about the reader's memory (spec file 20). -/

namespace Sys2Proof.Machine

/-- Settles O35: the read only answers, and its payload is the groups in the order asked for. -/
theorem breadWideCompletes : Obligations.BreadWideCompletes := by
  refine fun s r start le hr => ⟨fun hb => ?_, fun hb => ?_⟩
  · rw [← valueBytes_fieldValue_16]
    exact exec_bread_inBounds le hr (by decide) hb
  · rw [← valueBytes_fieldValue_32]
    exact exec_bread_inBounds le hr (by decide) hb

/-- Settles O37: each group straddles at bit `s % 8`; both 16-bit values are made of the same two groups. -/
theorem unalignedGroups : Obligations.UnalignedGroups := by
  refine ⟨fun X s j _ _ => ?_, fieldValue_16_byteSwap⟩
  have hstart : s + 8 * j = 8 * (s / 8 + j) + s % 8 := by omega
  rw [hstart]
  exact ubits_straddle X _ (by omega)

/-- Settles O40: each corner is one comparison; for the largest address, 8 times `FRAME_MAX` is at most 32760. -/
theorem boundsCorners : Obligations.BoundsCorners := by
  intro n len hn
  have hmax := Config.frameMax_le
  simp only [inBounds_iff, inBounds_eq_false_iff]
  refine ⟨?_, ?_, ?_, ?_, ?_, fun start => ⟨?_, ?_, ?_⟩⟩ <;> omega

end Sys2Proof.Machine
end

section
/-! PROOFS. The decoder's operand bytes and formats (rules R35, R53 to R60): each format's encoding is read back, and
nothing else is read as it. -/

namespace Sys2Proof

/-! ### Operand bytes -/

/-- The two START bytes as one 16-bit pattern, high byte first (rules R35, R56). -/
theorem append_eq_ofNat (hi lo : Byte) : hi ++ lo = BitVec.ofNat 16 (hi.toNat * 256 + lo.toNat) := by
  apply BitVec.eq_of_toNat_eq
  have hshift : hi.toNat <<< 8 ||| lo.toNat = hi.toNat * 256 + lo.toNat := by
    rw [← Nat.shiftLeft_add_eq_or_of_lt lo.isLt, Nat.shiftLeft_eq]
  rw [BitVec.toNat_append, hshift, BitVec.toNat_ofNat]
  omega

/-- START patterns 0x8000 and above are negative (rule R56). -/
theorem assembleStart_eq (hi lo : Byte) :
    assembleStart hi lo =
      if hi.toNat * 256 + lo.toNat < 32768 then ((hi.toNat * 256 + lo.toNat : Nat) : Int)
      else ((hi.toNat * 256 + lo.toNat : Nat) : Int) - 65536 := by
  have hlt : hi.toNat * 256 + lo.toNat < 2 ^ 16 := by omega
  rw [assembleStart, append_eq_ofNat, BitVec.toInt_eq_toNat_cond, BitVec.toNat_ofNat, Nat.mod_eq_of_lt hlt]
  split <;> split <;> omega

/-- Every START in range is read back from its two bytes (rule R56). -/
theorem assembleStart_encodeStart {start : Int} (hmin : -32768 ≤ start) (hmax : start ≤ 32767) :
    let w := BitVec.ofInt 16 start
    assembleStart (w.extractLsb' 8 8) (w.extractLsb' 0 8) = start := by
  intro w
  have hw : w.extractLsb' 8 8 ++ w.extractLsb' 0 8 = w := by
    rw [BitVec.extractLsb'_append_extractLsb'_eq_extractLsb' (show 8 = 0 + 8 from rfl)]
    exact BitVec.extractLsb'_eq_self
  rw [assembleStart, hw]
  exact BitVec.toInt_ofInt_eq_self (by decide) hmin (by omega)

/-- The two START bytes are written back from what they are read as (rule R56). -/
theorem encodeStart_assembleStart (hi lo : Byte) : encodeStart (assembleStart hi lo) = [hi, lo] := by
  simp only [encodeStart, assembleStart, BitVec.ofInt_toInt]
  rw [BitVec.extractLsb'_append_eq_left, BitVec.extractLsb'_append_eq_right]

/-- START is a 16-bit two's-complement integer (rule R56). -/
theorem assembleStart_bounds (hi lo : Byte) : -32768 ≤ assembleStart hi lo ∧ assembleStart hi lo ≤ 32767 :=
  ⟨BitVec.le_toInt (hi ++ lo), BitVec.toInt_le (x := hi ++ lo)⟩

/-- No reserved FLAGS bit is set exactly in the bytes 0 and 1 (rules R55, R60). -/
theorem flagsReserved_eq_zero_iff (flags : Byte) : flagsReserved flags = 0 ↔ flags.toNat < 2 := by
  have hbits : (flagsReserved flags).toNat = flags.toNat / 2 % 2 ^ 7 := by
    simp [flagsReserved, Nat.shiftRight_eq_div_pow]
  rw [BitVec.toNat_eq, hbits]
  change flags.toNat / 2 % 2 ^ 7 = 0 ↔ _
  omega

@[simp] theorem flagsReserved_encodeFlags (le : Bool) : flagsReserved (encodeFlags le) = 0 := by
  cases le <;> rfl

@[simp] theorem flagsLittleEndian_encodeFlags (le : Bool) : flagsLittleEndian (encodeFlags le) = le := by
  cases le <;> rfl

/-- A FLAGS byte without reserved bits is written back from its byte order (rule R55). -/
theorem encodeFlags_flagsLittleEndian {flags : Byte} (h : flagsReserved flags = 0) :
    encodeFlags (flagsLittleEndian flags) = flags := by
  rw [flagsReserved_eq_zero_iff] at h
  have hflags : flags = 0 ∨ flags = 1 := by bv_omega
  obtain rfl | rfl := hflags <;> rfl

/-! ### Each format, both ways -/

theorem wellFormed_cinit_iff (key iv salt : List Byte) :
    (Instr.cinit key iv salt).wellFormed = true ↔ key.length < 256 ∧ iv.length < 256 ∧ salt.length < 256 := by
  simp [Instr.wellFormed, fitsLengthByte, and_assoc, Nat.lt_succ_iff]

theorem wellFormed_bread_iff (start : Int) (n : Nat) (le : Bool) :
    (Instr.bread start n le).wellFormed = true ↔ -32768 ≤ start ∧ start ≤ 32767 ∧ n < 256 := by
  simp [Instr.wellFormed, and_assoc, Nat.lt_succ_iff]

/-- Format C-INIT reads its own encoding: the three length bytes part the arrays again (rule R53). -/
theorem decodeCinit_encodeBody {key iv salt : List Byte} (h : (Instr.cinit key iv salt).wellFormed = true) :
    decodeCinit (encodeBody (.cinit key iv salt)) = .ok (.cinit key iv salt) := by
  obtain ⟨hkey, hiv, hsalt⟩ := (wellFormed_cinit_iff key iv salt).1 h
  have hdrop : (key ++ (iv ++ salt)).drop (key.length + iv.length) = salt := by
    rw [← List.append_assoc, ← List.length_append, List.drop_left]
  simp [encodeBody, decodeCinit, Nat.mod_eq_of_lt hkey, Nat.mod_eq_of_lt hiv, Nat.mod_eq_of_lt hsalt, hdrop,
    Nat.add_assoc]

/-- Format C-INIT reads nothing but encodings: the arrays have the lengths their bytes say (rule R53). -/
theorem encode_of_decodeCinit {body : Frame} {i : Instr} (h : decodeCinit body = .ok i) :
    i.wellFormed = true ∧ encode i = opCinit :: body := by
  unfold decodeCinit at h
  split at h
  · next klen ilen slen arrays =>
    split at h
    · next hlen =>
      cases h
      have hkey : (arrays.take klen.toNat).length = klen.toNat := by simp; omega
      have hiv : ((arrays.drop klen.toNat).take ilen.toNat).length = ilen.toNat := by simp; omega
      have hsalt : (arrays.drop (klen.toNat + ilen.toNat)).length = slen.toNat := by simp; omega
      refine ⟨(wellFormed_cinit_iff _ _ _).2 (by omega), ?_⟩
      simp only [encode, encodeBody, opcodeOf, hkey, hiv, hsalt, BitVec.ofNat_toNat, BitVec.setWidth_eq]
      rw [List.append_assoc, ← List.drop_drop, List.take_append_drop, List.take_append_drop]
    · cases h
  · cases h

/-- Format READ reads its own encoding (rules R55, R56). -/
theorem decodeBread_encodeBody {start : Int} {n : Nat} {le : Bool}
    (h : (Instr.bread start n le).wellFormed = true) :
    decodeBread (encodeBody (.bread start n le)) = .ok (.bread start n le) := by
  obtain ⟨hmin, hmax, hn⟩ := (wellFormed_bread_iff start n le).1 h
  simp [encodeBody, encodeStart, decodeBread, assembleStart_encodeStart hmin hmax, Nat.mod_eq_of_lt hn]

/-- Format READ reads nothing but encodings (rules R55, R56, R60). -/
theorem encode_of_decodeBread {body : Frame} {i : Instr} (h : decodeBread body = .ok i) :
    i.wellFormed = true ∧ encode i = opBread :: body := by
  unfold decodeBread at h
  split at h
  · next hi lo len flags =>
    split at h
    · next hflags =>
      cases h
      obtain ⟨hmin, hmax⟩ := assembleStart_bounds hi lo
      refine ⟨(wellFormed_bread_iff _ _ _).2 ⟨hmin, hmax, by omega⟩, ?_⟩
      simp only [encode, encodeBody, opcodeOf, encodeStart_assembleStart, encodeFlags_flagsLittleEndian hflags,
        BitVec.ofNat_toNat, BitVec.setWidth_eq, List.cons_append, List.nil_append]
    · cases h
  · cases h

/-- Format BARE reads the empty operand string alone (rule R57). -/
theorem decodeBare_eq_ok_iff {i j : Instr} {body : Frame} : decodeBare i body = .ok j ↔ j = i ∧ body = [] := by
  cases body <;> simp [decodeBare, eq_comm]

/-! ### The seven opcodes -/

theorem opcode_cases (op : Byte) :
    op = opCinit ∨ op = opCenc ∨ op = opCdec ∨ op = opBload ∨ op = opBread ∨ op = opStat ∨ op = opRst ∨
      (op = 0x00 ∨ 0x08 ≤ op.toNat) := by
  simp only [opCinit, opCenc, opCdec, opBload, opBread, opStat, opRst]
  bv_omega

@[simp] theorem decode_opCinit (body : Frame) : decode (opCinit :: body) = decodeCinit body := rfl
@[simp] theorem decode_opCenc (body : Frame) : decode (opCenc :: body) = .ok (.cenc body) := rfl
@[simp] theorem decode_opCdec (body : Frame) : decode (opCdec :: body) = .ok (.cdec body) := rfl
@[simp] theorem decode_opBload (body : Frame) : decode (opBload :: body) = .ok (.bload body) := rfl
@[simp] theorem decode_opBread (body : Frame) : decode (opBread :: body) = decodeBread body := rfl
@[simp] theorem decode_opStat (body : Frame) : decode (opStat :: body) = decodeBare .stat body := rfl
@[simp] theorem decode_opRst (body : Frame) : decode (opRst :: body) = decodeBare .rst body := rfl

/-- An illegal opcode is none of the opcodes 0x01 to 0x07 (rule R52). -/
theorem ne_of_illegal {op k : Byte} (h : op = 0x00 ∨ 0x08 ≤ op.toNat) (hk : k ≠ 0x00) (hk8 : k.toNat < 0x08) :
    op ≠ k := by
  rintro rfl
  exact h.elim hk (Nat.not_le.2 hk8)

/-- An illegal opcode is refused whatever follows it (rule R61). -/
theorem decode_illegal {op : Byte} (body : Frame) (h : op = 0x00 ∨ 0x08 ≤ op.toNat) :
    decode (op :: body) = .error .illegalOp := by
  simp [decode, opCinit, opCenc, opCdec, opBload, opBread, opStat, opRst, ne_of_illegal h]

/-! ### The decoder against the encoder -/

theorem decode_encode {i : Instr} (h : i.wellFormed = true) : decode (encode i) = .ok i := by
  cases i with
  | cinit key iv salt => exact decodeCinit_encodeBody h
  | bread start n le => exact decodeBread_encodeBody h
  | cenc | cdec | bload | stat | rst => rfl

theorem encode_of_decode {Q : Frame} {i : Instr} (h : decode Q = .ok i) : i.wellFormed = true ∧ encode i = Q := by
  cases Q with
  | nil => cases h
  | cons op body =>
    obtain rfl | rfl | rfl | rfl | rfl | rfl | rfl | hop := opcode_cases op
    · exact encode_of_decodeCinit h
    · cases h; exact ⟨rfl, rfl⟩
    · cases h; exact ⟨rfl, rfl⟩
    · cases h; exact ⟨rfl, rfl⟩
    · exact encode_of_decodeBread h
    · obtain ⟨rfl, rfl⟩ := decodeBare_eq_ok_iff.1 h; exact ⟨rfl, rfl⟩
    · obtain ⟨rfl, rfl⟩ := decodeBare_eq_ok_iff.1 h; exact ⟨rfl, rfl⟩
    · cases (decode_illegal body hop).symm.trans h

/-- A frame decodes to the well-formed command it is the encoding of, and to no other (rule R59). -/
theorem decode_eq_ok_iff (Q : Frame) (i : Instr) : decode Q = .ok i ↔ i.wellFormed = true ∧ encode i = Q :=
  ⟨encode_of_decode, fun ⟨hwf, hQ⟩ => hQ ▸ decode_encode hwf⟩

/-- Settles O1: format by format, each operand is read back from its bytes. -/
theorem decodeOfEncode : Obligations.DecodeOfEncode := fun _ => decode_encode

/-- Settles O2: opcode by opcode, each format reads its own encodings only. -/
theorem encodeOfDecode : Obligations.EncodeOfDecode := fun _ _ => encode_of_decode

end Sys2Proof
end

section
/-! PROOFS. The decoder over the bytes of the frame (rules R59 to R62), and what the port answers to a refused frame. -/

namespace Sys2Proof

open Sys2Proof.Machine

/-! ### Each format over the bytes of the frame -/

/-- Format C-INIT over the bytes of the frame (rules R53, R59). -/
theorem decodeCinit_eq (op : Byte) (body : Frame) :
    decodeCinit body =
      if (op :: body).length < 4 then .error .malformed
      else if (op :: body).length ≠ 4 + ((op :: body).getD 1 0).toNat + ((op :: body).getD 2 0).toNat +
        ((op :: body).getD 3 0).toNat then .error .malformed
      else .ok (.cinit (((op :: body).drop 4).take ((op :: body).getD 1 0).toNat)
        (((op :: body).drop (4 + ((op :: body).getD 1 0).toNat)).take ((op :: body).getD 2 0).toNat)
        ((op :: body).drop (4 + ((op :: body).getD 1 0).toNat + ((op :: body).getD 2 0).toNat))) := by
  match body with
  | [] | [_] | [_, _] => rfl
  | klen :: ilen :: slen :: arrays =>
    have hdrop (k : Nat) : (op :: klen :: ilen :: slen :: arrays).drop (4 + k) = arrays.drop k := by
      rw [← List.drop_drop]; rfl
    have hlen : arrays.length + 4 = 4 + (klen.toNat + (ilen.toNat + slen.toNat)) ↔
        arrays.length = klen.toNat + (ilen.toNat + slen.toNat) := by omega
    simp [decodeCinit, hlen, hdrop, Nat.add_assoc]

/-- Format READ without a reserved FLAGS bit (rules R55, R56). -/
theorem decodeBread_ok {flags : Byte} (hi lo len : Byte) (h : flags.toNat < 2) :
    decodeBread [hi, lo, len, flags] =
      .ok (.bread (assembleStart hi lo) len.toNat (flagsLittleEndian flags)) :=
  if_pos ((flagsReserved_eq_zero_iff flags).2 h)

/-- Format READ with a reserved FLAGS bit (rule R60). -/
theorem decodeBread_reserved {flags : Byte} (hi lo len : Byte) (h : 2 ≤ flags.toNat) :
    decodeBread [hi, lo, len, flags] = .error .malformed :=
  if_neg (mt (flagsReserved_eq_zero_iff flags).1 (Nat.not_lt.2 h))

/-- Format READ over the bytes of the frame (rules R55, R56, R59). -/
theorem decodeBread_eq (op : Byte) (body : Frame) :
    decodeBread body =
      if (op :: body).length ≠ 5 then .error .malformed
      else if ((op :: body).getD 4 0).toNat / 2 ≠ 0 then .error .malformed
      else .ok (.bread
        (BitVec.ofNat 16 (((op :: body).getD 1 0).toNat * 256 + ((op :: body).getD 2 0).toNat)).toInt
        ((op :: body).getD 3 0).toNat (((op :: body).getD 4 0).getLsbD 0)) := by
  match body with
  | [] | [_] | [_, _] | [_, _, _] => rfl
  | [hi, lo, len, flags] =>
    obtain hflags | hflags := Nat.lt_or_ge flags.toNat 2
    · simp [decodeBread_ok hi lo len hflags, assembleStart, append_eq_ofNat, flagsLittleEndian,
        Nat.le_of_lt_succ hflags]
    · simp [decodeBread_reserved hi lo len hflags, Nat.lt_of_succ_le hflags]
  | _ :: _ :: _ :: _ :: _ :: _ => simp [decodeBread]

/-- Format BARE over the bytes of the frame (rules R57, R59). -/
theorem decodeBare_eq (i : Instr) (op : Byte) (body : Frame) :
    decodeBare i body = if (op :: body).length ≠ 1 then .error .malformed else .ok i := by
  cases body <;> simp [decodeBare]

/-- Settles O3: the opcode tests are the decoder's own, and each format is its equation over the bytes. -/
theorem decodeByFormat : Obligations.DecodeByFormat := by
  intro Q
  cases Q with
  | nil => rfl
  | cons op body =>
    rw [decode, decodeCinit_eq op, decodeBread_eq op, decodeBare_eq .stat op, decodeBare_eq .rst op]
    rfl

/-! ### Which frames a format refuses -/

/-- A format refuses by `E_MALFORMED` only, where one of its two checks fails (rule R62). -/
theorem checks_eq_error_iff {p q : Prop} [Decidable p] [Decidable q] (i : Instr) (e : DecodeError) :
    (if p then .error .malformed else if q then .error .malformed else .ok i : Except DecodeError Instr) =
      .error e ↔ e = .malformed ∧ (p ∨ q) := by
  by_cases hp : p <;> by_cases hq : q <;> simp [hp, hq, eq_comm]

theorem decodeCinit_eq_error_iff (op : Byte) (body : Frame) (e : DecodeError) :
    decodeCinit body = .error e ↔ e = .malformed ∧ ((op :: body).length < 4 ∨
      (op :: body).length ≠ 4 + ((op :: body).getD 1 0).toNat + ((op :: body).getD 2 0).toNat +
        ((op :: body).getD 3 0).toNat) := by
  rw [decodeCinit_eq op, checks_eq_error_iff]

theorem decodeBread_eq_error_iff (op : Byte) (body : Frame) (e : DecodeError) :
    decodeBread body = .error e ↔ e = .malformed ∧
      ((op :: body).length ≠ 5 ∨ 2 ≤ ((op :: body).getD 4 0).toNat) := by
  have half_ne_zero (n : Nat) : n / 2 ≠ 0 ↔ 2 ≤ n := by omega
  rw [decodeBread_eq op, checks_eq_error_iff, half_ne_zero]

theorem decodeBare_eq_error_iff (i : Instr) (op : Byte) (body : Frame) (e : DecodeError) :
    decodeBare i body = .error e ↔ e = .malformed ∧ (op :: body).length ≠ 1 := by
  cases body <;> simp [decodeBare, eq_comm]

/-- The malformed frames of rule R62. -/
theorem decode_malformed_iff (Q : Frame) :
    decode Q = .error .malformed ↔
      Q = [] ∨
      (Q.getD 0 0 = 1 ∧
        (Q.length < 4 ∨ Q.length ≠ 4 + (Q.getD 1 0).toNat + (Q.getD 2 0).toNat + (Q.getD 3 0).toNat)) ∨
      (Q.getD 0 0 = 5 ∧ (Q.length ≠ 5 ∨ 2 ≤ (Q.getD 4 0).toNat)) ∨
      ((Q.getD 0 0 = 6 ∨ Q.getD 0 0 = 7) ∧ Q.length ≠ 1) := by
  cases Q with
  | nil => simp [decode]
  | cons op body =>
    obtain rfl | rfl | rfl | rfl | rfl | rfl | rfl | hop := opcode_cases op
    · rw [decode_opCinit, decodeCinit_eq_error_iff opCinit]; simp [opCinit]
    · rw [decode_opCenc]; simp [opCenc]
    · rw [decode_opCdec]; simp [opCdec]
    · rw [decode_opBload]; simp [opBload]
    · rw [decode_opBread, decodeBread_eq_error_iff opBread]; simp [opBread]
    · rw [decode_opStat, decodeBare_eq_error_iff .stat opStat]; simp [opStat]
    · rw [decode_opRst, decodeBare_eq_error_iff .rst opRst]; simp [opRst]
    · rw [decode_illegal body hop]; simp [ne_of_illegal hop]

/-- The frames with an illegal opcode (rules R61, R62). -/
theorem decode_illegalOp_iff (op : Byte) (body : Frame) :
    decode (op :: body) = .error .illegalOp ↔ op = 0x00 ∨ 0x08 ≤ op.toNat := by
  refine ⟨fun h => ?_, decode_illegal body⟩
  obtain rfl | rfl | rfl | rfl | rfl | rfl | rfl | hop := opcode_cases op
  · cases ((decodeCinit_eq_error_iff opCinit body _).1 h).1
  · cases h
  · cases h
  · cases h
  · cases ((decodeBread_eq_error_iff opBread body _).1 h).1
  · cases ((decodeBare_eq_error_iff .stat opStat body _).1 h).1
  · cases ((decodeBare_eq_error_iff .rst opRst body _).1 h).1
  · exact hop

/-! ### What the port answers -/

/-- A refused frame is answered by its status alone and writes no state (rules R61, R62). -/
theorem accept_refused {Q : Frame} {e : DecodeError} (s : State) (h : decode Q = .error e) :
    ∃ t, accept Q s = .next t ∧ Answered s t [(Status.ofDecodeError e).code] ∧ UnitsUnchanged s t :=
  ⟨_, accept_error s h, answered_respond s _ [], rfl, rfl, rfl⟩

/-- Settles O4: the opcode alone makes the decoder refuse the frame. -/
theorem illegalOpcodeRefused : Obligations.IllegalOpcodeRefused :=
  fun _ body s hop => accept_refused s (decode_illegal body hop)

/-- Settles O5: opcode by opcode, by which frames each format refuses. -/
theorem malformedFrameRefused : Obligations.MalformedFrameRefused :=
  ⟨decode_malformed_iff, fun _ s h => accept_refused s h, decode_illegalOp_iff⟩

/-- Settles O7: START from its two bytes, the ranges from well-formedness, and 8 times `FRAME_MAX` is at most 32760. -/
theorem breadOperandAssembly : Obligations.BreadOperandAssembly := by
  refine ⟨fun hi lo len flags hflags => ?_, fun Q start n le h => ?_, fun start n len hlen hn hin => ?_⟩
  · rw [← assembleStart_eq]
    exact decodeBread_ok hi lo len hflags
  · obtain ⟨hmin, hmax, hn⟩ := (wellFormed_bread_iff start n le).1 (encode_of_decode h).1
    omega
  · obtain ⟨-, hend⟩ := (inBounds_iff start n len).1 hin
    have hmax := Config.frameMax_le
    omega

/-- Settles O8: a reserved FLAGS bit makes the decoder refuse, and STATUS is below 8. -/
theorem reservedBitsRefused : Obligations.ReservedBitsRefused :=
  ⟨fun hi lo len flags s hflags =>
      accept_refused (Q := [0x05, hi, lo, len, flags]) s (decodeBread_reserved hi lo len hflags),
    fun hi lo len _ hflags => ⟨_, decodeBread_ok hi lo len hflags⟩,
    fun s => ⟨_, s.statusByte, rfl, answered_respond s .ok _, statusByte_lt s⟩⟩

/-- Settles O6: each frame is the encoding of its command, by evaluation of the encoder. -/
theorem sampleFramesDecode : Obligations.SampleFramesDecode := by
  unfold Obligations.SampleFramesDecode
  simp only [decode_eq_ok_iff]
  decide

end Sys2Proof
end

section
/-! PROOFS. Every frame is answered, and the payload each command answers with (rules R50, R58). -/

namespace Sys2Proof.Machine

variable {s t : State}

/-! ### Every command, frame and step is answered -/

/-- Every command answers a next state (rule R201). -/
theorem exec_next (i : Instr) (s : State) : ∃ t, exec i s = .next t := by
  cases i with
  | cinit key iv salt =>
    by_cases hlen : key.length = 16 ∧ iv.length = 16 ∧ salt.length = 6
    · exact ⟨_, execCinit_ok s hlen⟩
    · exact ⟨_, execCinit_refused s hlen⟩
  | cenc data =>
    obtain ⟨_, _, hf⟩ := transformCommand_of_cipher encryptFrame data s.cipher
    exact ⟨_, hf s rfl⟩
  | cdec data =>
    obtain ⟨_, _, hf⟩ := transformCommand_of_cipher decryptFrame data s.cipher
    exact ⟨_, hf s rfl⟩
  | bload data =>
    obtain hlen | hlen := Nat.lt_or_ge Config.frameMax data.length
    · exact ⟨_, execBload_refused s hlen⟩
    · exact ⟨_, execBload_ok s hlen⟩
  | bread start n le =>
    obtain ⟨_, _, hr⟩ | hr := execBread_of_reader start n le s.reader
    · exact ⟨_, hr s rfl⟩
    · exact ⟨_, hr s rfl⟩
  | stat => exact ⟨_, rfl⟩
  | rst => exact ⟨_, rfl⟩

/-- A command gives exactly one response frame, with a status byte (rule R58). -/
theorem Performs.answered {i : Instr} (h : Performs s i t) :
    ∃ (st : Status) (payload : List Byte), Answered s t (st.code :: payload) := by
  cases h with
  | answer _ st payload => exact ⟨st, payload, answered_respond s st payload⟩
  | cinit | bload | rst => exact ⟨.ok, [], rfl, rfl⟩
  | breadOutOfBounds => exact ⟨.okOob, _, rfl, rfl⟩

/-- Every frame gets exactly one response frame, with a status byte (rules R50, R58). -/
theorem accept_answers (Q : Frame) (s : State) :
    ∃ t, accept Q s = .next t ∧ ∃ (st : Status) (payload : List Byte), Answered s t (st.code :: payload) := by
  cases hQ : decode Q with
  | ok i =>
    obtain ⟨t, ht⟩ := exec_next i s
    exact ⟨t, (accept_ok s hQ).trans ht, (exec_performs ht).answered⟩
  | error e => exact ⟨_, accept_error s hQ, _, [], answered_respond s _ []⟩

/-- Every step answers a next state (rules R201, R202). -/
theorem step_next (s : State) : ∃ t, step s = .next t := by
  obtain ⟨-, h⟩ | ⟨Q, rest, -, h⟩ | ⟨_, _, -, -, h⟩ := step_cases (s := s) rfl
  · exact ⟨_, h⟩
  · obtain ⟨t, ht, -⟩ := accept_answers Q { s with stream := rest }
    exact ⟨t, h.trans ht⟩
  · exact ⟨_, h⟩

/-- Settles O12: a step waits, resets or hands a frame to the port, which answers every frame. -/
theorem everyFrameIsAnswered : Obligations.EveryFrameIsAnswered := by
  refine ⟨step_next, fun Q s => ?_⟩
  obtain ⟨t, ht, _, _, hP⟩ := accept_answers Q s
  exact ⟨t, _, ht, hP⟩

/-! ### Payloads -/

theorem encryptFrame_length (K IV : Block) {F : List Byte} (h : 16 ≤ F.length) :
    (encryptFrame K IV F).length = F.length := by
  have hlead : (passAt (cbc1Encrypt K IV) 0 F).length = F.length := passAt_length _ 0 F h
  unfold encryptFrame
  split
  · rw [passAt_length _ _ _ (by omega), hlead]
  · exact hlead

theorem decryptFrame_length (K IV : Block) {F : List Byte} (h : 16 ≤ F.length) :
    (decryptFrame K IV F).length = F.length := by
  unfold decryptFrame
  split
  · have htail : (passAt (cbc1Decrypt K IV) (F.length - 16) F).length = F.length :=
      passAt_length _ _ F (by omega)
    rw [passAt_length _ 0 _ (by omega), htail]
  · exact passAt_length _ 0 F h

theorem bigEndianValue_concat (gs : List Nat) (g : Nat) :
    bigEndianValue (gs ++ [g]) = bigEndianValue gs * 256 + g := by
  simp [bigEndianValue]

/-- `n` groups of 8 bits make a value of `8·n` bits (rule R33). -/
theorem bigEndianValue_lt {gs : List Nat} (h : ∀ g ∈ gs, g < 256) : bigEndianValue gs < 256 ^ gs.length := by
  induction gs using List.reverseRecOn with
  | nil => decide
  | append_singleton gs g ih =>
    have hg : g < 256 := h g (by simp)
    have hgs := ih fun x hx => h x (by simp [hx])
    rw [bigEndianValue_concat, List.length_append, List.length_singleton, Nat.pow_succ]
    omega

/-- Up to 8 bits the byte order is ignored (rules R97, R99). -/
theorem fieldValue_narrow (X : List Byte) (s : Nat) {n : Nat} (le : Bool) (hn : n ≤ 8) :
    fieldValue X s n le = ubits X s n :=
  if_pos hn

/-- A field of `n` groups is below `256^n`, in either byte order (rule R33). -/
theorem fieldValue_wide_lt (X : List Byte) (s : Nat) {n : Nat} (le : Bool) (hn : 8 < n) :
    fieldValue X s n le < 256 ^ (n / 8) := by
  have hgroup : ∀ g ∈ byteGroups X s (n / 8), g < 256 := by
    simpa [byteGroups] using fun j _ => ubits_lt X (s + 8 * j) 8
  rw [fieldValue_wide X s le hn]
  cases le
  · simpa [byteGroups] using bigEndianValue_lt hgroup
  · simpa [byteGroups] using bigEndianValue_lt fun g hg => hgroup g (List.mem_reverse.1 hg)

/-- The value of a field of a legal length fits VALUE (rule R58). -/
theorem fieldValue_lt (X : List Byte) (s : Nat) {n : Nat} (le : Bool) (hn : legalBitLength n = true) :
    fieldValue X s n le < 2 ^ 32 := by
  have hn32 : n ≤ 32 := by rw [legalBitLength_iff] at hn; omega
  obtain hn8 | hn8 := Nat.lt_or_ge 8 n
  · have hpow : 256 ^ (n / 8) ≤ 256 ^ 4 := Nat.pow_le_pow_right (by decide) (by omega)
    exact (fieldValue_wide_lt X s le hn8).trans_le hpow
  · rw [fieldValue_narrow X s le hn8]
    exact (ubits_lt X s n).trans_le (Nat.pow_le_pow_right (by decide) hn32)

/-- What CENC and CDEC answer: an error byte alone, or as many bytes as the data (rules R58, R74). -/
theorem transformCommand_response {f : Block → Block → List Byte → List Byte} {data : List Byte}
    (hf : ∀ K IV, 16 ≤ data.length → (f K IV data).length = data.length)
    (h : transformCommand f data s = .next t) :
    ∃ P, Answered s t P ∧
      ((∃ e : Byte, P = [e] ∧ (e = 0x81 ∨ e = 0x82 ∨ e = 0x83 ∨ e = 0x84)) ∨
       ∃ c, s.cipher = some c ∧ P = 0x00 :: f c.skey c.siv data ∧ P.length = 1 + data.length) := by
  obtain ⟨-, rfl⟩ | ⟨-, -, -, rfl⟩ | ⟨-, -, -, rfl⟩ | ⟨c, hc, hmin, -, rfl⟩ := transformCommand_cases h
  · exact ⟨_, answered_respond s .eNotReady [], .inl ⟨_, rfl, by decide⟩⟩
  · exact ⟨_, answered_respond s .eValidation [], .inl ⟨_, rfl, by decide⟩⟩
  · exact ⟨_, answered_respond s .eCapacity [], .inl ⟨_, rfl, by decide⟩⟩
  · exact ⟨_, answered_respond s .ok _, .inr ⟨c, hc, rfl, by rw [List.length_cons, hf _ _ hmin, Nat.add_comm]⟩⟩

/-- What BREAD answers: an error byte alone, the four bytes of the value, or four zero bytes under `OK_OOB`
(rules R58, R96). -/
theorem execBread_response {start : Int} {n : Nat} {le : Bool} (h : execBread start n le s = .next t) :
    ∃ P, Answered s t P ∧
      ((∃ e : Byte, P = [e] ∧ (e = 0x81 ∨ e = 0x82 ∨ e = 0x83 ∨ e = 0x84)) ∨
       (∃ (r : ReaderUnit) (v : Value), s.reader = some r ∧ v.toNat = fieldValue r.buf start.toNat n le ∧
         P = 0x00 :: valueBytes v) ∨
       P = [0x01, 0x00, 0x00, 0x00, 0x00]) := by
  obtain ⟨-, rfl⟩ | ⟨-, -, -, rfl⟩ | ⟨-, -, -, -, rfl⟩ | ⟨r, hr, hn, -, rfl⟩ := execBread_cases h
  · exact ⟨_, answered_respond s .eNotReady [], .inl ⟨_, rfl, by decide⟩⟩
  · exact ⟨_, answered_respond s .eInvalidArg [], .inl ⟨_, rfl, by decide⟩⟩
  · exact ⟨_, ⟨rfl, rfl⟩, .inr (.inr rfl)⟩
  · exact ⟨_, answered_respond s .ok _,
      .inr (.inl ⟨r, zext32 _, hr, Nat.mod_eq_of_lt (fieldValue_lt r.buf _ le hn), rfl⟩)⟩

/-- Settles O56: by what the port answers, and command by command by what it can do. -/
theorem responseByCommand : Obligations.ResponseByCommand := by
  refine ⟨fun Q s => ?_, fun Q s e he => ?_, fun i s => ?_⟩
  · obtain ⟨t, ht, st, payload, hP⟩ := accept_answers Q s
    exact ⟨t, _, ht, hP, List.cons_ne_nil _ _⟩
  · obtain ⟨t, ht, hP, -⟩ := accept_refused s he
    exact ⟨t, _, ht, hP, by cases e <;> decide⟩
  · obtain ⟨t, ht⟩ := exec_next i s
    refine ⟨t, ?_⟩
    cases i with
    | cinit key iv salt =>
      obtain ⟨-, rfl⟩ | ⟨-, rfl⟩ := execCinit_cases ht
      · exact ⟨_, ht, ⟨rfl, rfl⟩, .inr rfl⟩
      · exact ⟨_, ht, answered_respond s .eValidation [], .inl ⟨_, rfl, by decide⟩⟩
    | cenc data =>
      obtain ⟨P, hP⟩ := transformCommand_response (fun K IV => encryptFrame_length K IV) ht
      exact ⟨P, ht, hP⟩
    | cdec data =>
      obtain ⟨P, hP⟩ := transformCommand_response (fun K IV => decryptFrame_length K IV) ht
      exact ⟨P, ht, hP⟩
    | bload data =>
      obtain ⟨-, rfl⟩ | ⟨-, rfl⟩ := execBload_cases ht
      · exact ⟨_, ht, answered_respond s .eCapacity [], .inl ⟨_, rfl, by decide⟩⟩
      · exact ⟨_, ht, ⟨rfl, rfl⟩, .inr rfl⟩
    | bread start n le =>
      obtain ⟨P, hP⟩ := execBread_response ht
      exact ⟨P, ht, hP⟩
    | stat => cases ht; exact ⟨_, rfl, answered_respond s .ok _, .inr rfl⟩
    | rst => cases ht; exact ⟨_, rfl, ⟨rfl, rfl⟩, .inr rfl⟩

end Sys2Proof.Machine
end

section
/-! PROOFS. The spec's text of commands (rule R64). -/

namespace Sys2Proof.Machine

theorem Asm.Line.legal_iff (l : Asm.Line) :
    l.legal = true ↔
      l.toInstr.wellFormed = true ∧ ∀ start n, l = .bread start n none → n ≠ 16 ∧ n ≠ 32 := by
  cases l with
  | bread start n order => cases order <;> simp [Asm.Line.legal]
  | cinit | cenc | cdec | bload | stat | rst => simp [Asm.Line.legal]

/-- A legal line encodes a frame, which decodes to its command (rule R64). -/
theorem Asm.assemble_legal {l : Asm.Line} (h : l.legal = true) :
    ∃ Q, Asm.assemble l = some Q ∧ decode Q = .ok l.toInstr :=
  ⟨_, if_pos h, decode_encode (l.legal_iff.1 h).1⟩

theorem Asm.assemble_illegal {l : Asm.Line} (h : l.legal = false) : Asm.assemble l = none := by
  simp [Asm.assemble, h]

/-- At every length but 16 and 32 BREAD ignores the byte order (rules R94, R95, R99). -/
theorem execBread_byteOrder {n : Nat} (start : Int) (le le' : Bool) (s : State) (h16 : n ≠ 16) (h32 : n ≠ 32) :
    execBread start n le s = execBread start n le' s := by
  by_cases hn : legalBitLength n = true
  · have hn8 : n ≤ 8 := by rw [legalBitLength_iff] at hn; omega
    simp only [execBread, fieldValue_narrow _ _ _ hn8]
  · simp only [execBread, if_neg hn]

/-- Settles O57: a legal line is well formed, so its encoding is read back; the sample lines are read by evaluation. -/
theorem assembledLineDecodes : Obligations.AssembledLineDecodes := by
  refine ⟨fun _ => Asm.assemble_legal, fun _ => Asm.assemble_illegal, Asm.Line.legal_iff,
    fun text l htext hl => ?_, ?_, fun start n hn => ?_, fun start n o s h16 h32 => ?_⟩
  · rw [Asm.assembleText, htext]
    exact Asm.assemble_legal hl
  · decide
  · apply Asm.assemble_illegal
    rw [← Bool.not_eq_true, Asm.Line.legal_iff]
    rintro ⟨-, hlen⟩
    obtain ⟨h16, h32⟩ := hlen start n rfl
    omega
  · exact execBread_byteOrder start _ _ s h16 h32

end Sys2Proof.Machine
end

section
/-! PROOFS. Salting and CINIT (rules R70, R71, R75). -/

namespace Sys2Proof.Machine

variable {s t : State}

/-! ### Salting -/

/-- The sum is reduced modulo 255, so it fits a byte (rule R70). -/
theorem saltByte_toNat (x y : Byte) : (saltByte x y).toNat = (x.toNat + y.toNat) % 255 :=
  Nat.mod_eq_of_lt ((Nat.mod_lt _ (by decide)).trans (by decide))

/-- Below 255 salting is 8-bit addition (rule R71 (f)). -/
theorem saltByte_eq_add {x y : Byte} (h : x.toNat + y.toNat < 255) : saltByte x y = x + y := by
  rw [saltByte, Nat.mod_eq_of_lt h, BitVec.ofNat_add, BitVec.ofNat_toNat, BitVec.ofNat_toNat,
    BitVec.setWidth_eq, BitVec.setWidth_eq]

theorem salt16_get_of_lt (X : Block) (S : Salt) {k : Nat} (hk : k < 6) :
    (salt16 X S)[k] = saltByte X[k] S[k] := by
  simp [salt16, hk]

theorem salt16_get_of_ge (X : Block) (S : Salt) {k : Nat} (h16 : k < 16) (hk : 6 ≤ k) :
    (salt16 X S)[k] = X[k] := by
  simp [salt16, Nat.not_lt.2 hk]

/-- No remainder modulo 255 is 0xFF (rule R71 (a)). -/
theorem salted_salt16 (X : Block) (S : Salt) : Salted (salt16 X S) := by
  intro k hk hFF
  have hval : (X[k.val].toNat + S[k.val].toNat) % 255 = 255 := by
    rw [← saltByte_toNat, ← salt16_get_of_lt X S hk]
    exact congrArg BitVec.toNat hFF
  omega

/-- The zero salt changes only bytes 0xFF, of which a salted array has none to change (rules R71, R85). -/
theorem salt16_zero {X : Block} (h : Salted X) : salt16 X (Vector.replicate 6 0) = X := by
  apply Vector.ext
  intro k hk
  obtain hlow | hhigh := Nat.lt_or_ge k 6
  · have hne : X[k].toNat ≠ 255 := fun hFF => h ⟨k, hk⟩ hlow (BitVec.eq_of_toNat_eq hFF)
    have hsum : X[k].toNat + (0 : Byte).toNat < 255 := by
      have := X[k].isLt
      simp only [BitVec.ofNat_eq_ofNat, BitVec.toNat_ofNat]
      omega
    rw [salt16_get_of_lt X _ hlow, Vector.getElem_replicate, saltByte_eq_add hsum]
    exact BitVec.add_zero _
  · exact salt16_get_of_ge X _ hk hhigh

/-! ### Operands -/

@[simp] theorem toBlock_get (xs : List Byte) {k : Nat} (hk : k < 16) : (toBlock xs)[k] = xs.getD k 0 := by
  simp [toBlock, blockAt]

@[simp] theorem toSalt_get (xs : List Byte) {k : Nat} (hk : k < 6) : (toSalt xs)[k] = xs.getD k 0 := by
  simp [toSalt]

/-! ### Commands that only answer -/

/-- A response changes none of the block's own state (rules R9, R177). -/
theorem respond_frame (s : State) (st : Status) (payload : List Byte) :
    Answered s (s.respond st payload) (st.code :: payload) ∧ UnitsUnchanged s (s.respond st payload) ∧
      BufferUnchanged s (s.respond st payload) :=
  ⟨answered_respond s st payload, ⟨rfl, rfl, rfl⟩, rfl, fun _ => rfl⟩

/-! ### CINIT -/

/-- Settles O15: byte by byte, and what CINIT stores. -/
theorem saltingModulo255 : Obligations.SaltingModulo255 := by
  refine ⟨fun X S k => ⟨fun hk => ?_, salt16_get_of_ge X S k.isLt⟩, fun key iv salt s t hkey hiv hsalt h => ?_⟩
  · exact (congrArg BitVec.toNat (salt16_get_of_lt X S hk)).trans (saltByte_toNat _ _)
  · cases (execCinit_ok s ⟨hkey, hiv, hsalt⟩).symm.trans h
    rfl

/-- Settles O16: from the rule for one byte; the printed sums by evaluation. -/
theorem saltingConsequences : Obligations.SaltingConsequences :=
  ⟨salted_salt16, by decide, by decide, by decide, by decide, fun _ _ => saltByte_eq_add, by decide,
    fun X S k hk hX => (salt16_get_of_ge X S k.isLt hk).trans hX⟩

/-- Byte `k` of a salted operand, salted below 6 and copied from there (rule R70). -/
theorem salt16_operand_get (xs salt : List Byte) (k : Fin 16) :
    (k.val < 6 → (salt16 (toBlock xs) (toSalt salt))[k].toNat =
      ((xs.getD k.val 0).toNat + (salt.getD k.val 0).toNat) % 255) ∧
    (6 ≤ k.val → (salt16 (toBlock xs) (toSalt salt))[k] = xs.getD k.val 0) := by
  constructor
  · intro hk
    rw [Fin.getElem_fin, salt16_get_of_lt _ _ hk, saltByte_toNat, toBlock_get, toSalt_get]
  · intro hk
    rw [Fin.getElem_fin, salt16_get_of_ge _ _ k.isLt hk, toBlock_get]

/-- Settles O13: the state a successful CINIT leaves, and the bytes of the two salted operands. -/
theorem cinitConstructs : Obligations.CinitConstructs := by
  intro key iv salt s hkey hiv hsalt
  have hkeyBytes := salt16_operand_get key salt
  have hivBytes := salt16_operand_get iv salt
  exact ⟨_, _, execCinit_ok s ⟨hkey, hiv, hsalt⟩, rfl,
    fun k hk => ⟨(hkeyBytes k).1 hk, (hivBytes k).1 hk⟩, fun k hk => ⟨(hkeyBytes k).2 hk, (hivBytes k).2 hk⟩,
    rfl, ⟨rfl, fun _ => rfl⟩, rfl, rfl, rfl⟩

/-- Settles O14: the length check fails, so CINIT only answers. -/
theorem cinitRefusesWrongLengths : Obligations.CinitRefusesWrongLengths :=
  fun _ _ _ s h => ⟨_, execCinit_refused s h, respond_frame s .eValidation []⟩

end Sys2Proof.Machine
end

section
/-! PROOFS. Every step keeps the invariant of the block (rules R13, R58, R71, R170). -/

namespace Sys2Proof.Machine

variable {s t : State}

/-! ### Well-formed responses -/

/-- `OK` may carry any payload (rule R58). -/
theorem responseWf_ok (payload : List Byte) : ResponseWf (0x00 :: payload) :=
  ⟨.ok, payload, rfl, fun h => by simp [failedResponse] at h, fun h => by cases h⟩

/-- A status other than `OK_OOB` may stand alone (rule R58). -/
theorem responseWf_alone {st : Status} (h : st ≠ .okOob) : ResponseWf [st.code] :=
  ⟨st, [], rfl, fun _ => rfl, fun h' => absurd h' h⟩

/-- `OK_OOB` with its four zero bytes (rule R96). -/
theorem responseWf_okOob : ResponseWf [0x01, 0x00, 0x00, 0x00, 0x00] :=
  ⟨.okOob, _, rfl, fun h => absurd h (by decide), fun _ => rfl⟩

/-- An error byte of a command stands alone (rules R58, R171 to R174). -/
theorem responseWf_error {e : Byte} (h : e = 0x81 ∨ e = 0x82 ∨ e = 0x83 ∨ e = 0x84) : ResponseWf [e] := by
  obtain rfl | rfl | rfl | rfl := h
  · exact responseWf_alone (st := .eValidation) (by decide)
  · exact responseWf_alone (st := .eInvalidArg) (by decide)
  · exact responseWf_alone (st := .eNotReady) (by decide)
  · exact responseWf_alone (st := .eCapacity) (by decide)

/-- Every command gives a well-formed response: an error byte alone, or what its row of rule R58 says. -/
theorem exec_responseWf {i : Instr} (h : exec i s = .next t) : ∃ P, Answered s t P ∧ ResponseWf P := by
  obtain ⟨-, -, hresponse⟩ := responseByCommand
  obtain ⟨t', P, ht', hP, hform⟩ := hresponse i s
  cases ht'.symm.trans h
  refine ⟨P, hP, ?_⟩
  obtain ⟨e, rfl, he⟩ | hform := hform
  · exact responseWf_error he
  cases i with
  | cinit | bload | stat | rst => exact hform ▸ responseWf_ok _
  | cenc | cdec =>
    obtain ⟨c, -, rfl, -⟩ := hform
    exact responseWf_ok _
  | bread =>
    obtain ⟨r, v, -, -, rfl⟩ | rfl := hform
    · exact responseWf_ok _
    · exact responseWf_okOob

/-! ### The invariant -/

/-- The cipher unit is written by CINIT, with salted values, and cleared by RST (rules R12, R71). -/
theorem Performs.keeps_salted {i : Instr} (h : Performs s i t)
    (hs : ∀ c, s.cipher = some c → Salted c.skey ∧ Salted c.siv) :
    ∀ c, t.cipher = some c → Salted c.skey ∧ Salted c.siv := by
  intro c hc
  cases h with
  | cinit => cases hc; exact ⟨salted_salt16 _ _, salted_salt16 _ _⟩
  | rst => cases hc
  | answer | bload | breadOutOfBounds => exact hs c hc

/-- The reader unit is written by a fitting BLOAD and cleared by RST (rules R13, R14). -/
theorem Performs.keeps_readerFits {i : Instr} (h : Performs s i t) (hs : ReaderFits s) : ReaderFits t := by
  cases h with
  | bload hlen => exact readerFits_loadReader s _ hlen
  | rst => exact readerFits_clearUnits s
  | answer | cinit | breadOutOfBounds => exact hs

/-- One more well-formed response keeps them all well formed (rule R58). -/
theorem Answered.keeps_responseWf {P : Frame} (h : Answered s t P) (hP : ResponseWf P)
    (hs : ∀ R ∈ s.responses, ResponseWf R) : ∀ R ∈ t.responses, ResponseWf R := by
  rw [h.1]
  exact List.forall_mem_cons.2 ⟨hP, hs⟩

/-- The two units by what the command writes, the responses by what it answers. -/
theorem exec_keeps_inv {i : Instr} (hs : BlockInv s) (h : exec i s = .next t) : BlockInv t := by
  obtain ⟨hsalted, hfits, hresponses⟩ := hs
  obtain ⟨P, hP, hwf⟩ := exec_responseWf h
  exact ⟨(exec_performs h).keeps_salted hsalted, (exec_performs h).keeps_readerFits hfits,
    hP.keeps_responseWf hwf hresponses⟩

/-- The port runs a command or answers a refusal (rules R61, R62). -/
theorem accept_keeps_inv {Q : Frame} (hs : BlockInv s) (h : accept Q s = .next t) : BlockInv t := by
  obtain ⟨i, -, hi⟩ | ⟨e, -, he⟩ := accept_cases h
  · exact exec_keeps_inv hs hi.symm
  · cases he
    obtain ⟨hsalted, hfits, hresponses⟩ := hs
    have hne : Status.ofDecodeError e ≠ .okOob := by cases e <;> decide
    exact ⟨hsalted, hfits, List.forall_mem_cons.2 ⟨responseWf_alone hne, hresponses⟩⟩

/-- Reset leaves both units without a value and gives no response (rule R190). -/
theorem blockInv_clearUnits (hs : ∀ R ∈ s.responses, ResponseWf R) : BlockInv s.clearUnits :=
  ⟨fun _ hc => (nomatch hc), readerFits_clearUnits s, hs⟩

/-- Settles O47: a step waits, hands a frame to the port, or performs reset; the host's stream is not in the
invariant. -/
theorem stepKeepsInv : Obligations.StepKeepsInv := by
  intro s t hs h
  obtain ⟨-, ht⟩ | ⟨Q, rest, -, ht⟩ | ⟨_, rest, -, -, ht⟩ := step_cases h
  · cases ht; exact hs
  · exact accept_keeps_inv (s := { s with stream := rest }) hs ht.symm
  · obtain ⟨-, -, hresponses⟩ := hs
    cases ht
    exact blockInv_clearUnits (s := { s with stream := rest }) hresponses

end Sys2Proof.Machine
end

section
/-! PROOFS. The AES primitive: each round function is undone by its inverse, and so is the cipher (rules R127 to
R133). -/

namespace Sys2Proof.Machine

/-! ### The constants as linear maps (rule R122) -/

theorem mul2_xor (a b : Byte) : mul2 (a ^^^ b) = mul2 a ^^^ mul2 b := xtime_xor a b

theorem mul3_xor (a b : Byte) : mul3 (a ^^^ b) = mul3 a ^^^ mul3 b := by
  simp only [mul3, xtime_xor]; ac_rfl

theorem mul4_xor (a b : Byte) : mul4 (a ^^^ b) = mul4 a ^^^ mul4 b := by
  simp only [mul4, xtime_xor]

theorem mul8_xor (a b : Byte) : mul8 (a ^^^ b) = mul8 a ^^^ mul8 b := by
  simp only [mul8, mul4_xor, xtime_xor]

theorem mul9_xor (a b : Byte) : mul9 (a ^^^ b) = mul9 a ^^^ mul9 b := by
  simp only [mul9, mul8_xor]; ac_rfl

theorem mul11_xor (a b : Byte) : mul11 (a ^^^ b) = mul11 a ^^^ mul11 b := by
  simp only [mul11, mul8_xor, mul2_xor]; ac_rfl

theorem mul13_xor (a b : Byte) : mul13 (a ^^^ b) = mul13 a ^^^ mul13 b := by
  simp only [mul13, mul8_xor, mul4_xor]; ac_rfl

theorem mul14_xor (a b : Byte) : mul14 (a ^^^ b) = mul14 a ^^^ mul14 b := by
  simp only [mul14, mul8_xor, mul4_xor, mul2_xor]; ac_rfl

/-! ### One column (rules R130, R131) -/

/-- The first row of `MixColumns`; the other three are the same with the column rotated. -/
def mixRow (a0 a1 a2 a3 : Byte) : Byte := mul2 a0 ^^^ mul3 a1 ^^^ a2 ^^^ a3

/-- The first row of `InvMixColumns`; the other three are the same with the column rotated. -/
def invMixRow (a0 a1 a2 a3 : Byte) : Byte := mul14 a0 ^^^ mul11 a1 ^^^ mul13 a2 ^^^ mul9 a3

theorem mixColumn_eq (a0 a1 a2 a3 : Byte) :
    mixColumn a0 a1 a2 a3 =
      #v[mixRow a0 a1 a2 a3, mixRow a1 a2 a3 a0, mixRow a2 a3 a0 a1, mixRow a3 a0 a1 a2] := by
  simp only [mixColumn, mixRow]
  ac_rfl

theorem invMixColumn_eq (a0 a1 a2 a3 : Byte) :
    invMixColumn a0 a1 a2 a3 =
      #v[invMixRow a0 a1 a2 a3, invMixRow a1 a2 a3 a0, invMixRow a2 a3 a0 a1, invMixRow a3 a0 a1 a2] := by
  simp only [invMixColumn, invMixRow]
  ac_rfl

/-- The product of the two coefficient polynomials, `InvMixColumns` last, is 1. -/
theorem invMix_mix_coefficients : ∀ a : Byte,
    mul14 (mul2 a) ^^^ mul11 a ^^^ mul13 a ^^^ mul9 (mul3 a) = a ∧
    mul14 (mul3 a) ^^^ mul11 (mul2 a) ^^^ mul13 a ^^^ mul9 a = 0 ∧
    mul14 a ^^^ mul11 (mul3 a) ^^^ mul13 (mul2 a) ^^^ mul9 a = 0 ∧
    mul14 a ^^^ mul11 a ^^^ mul13 (mul3 a) ^^^ mul9 (mul2 a) = 0 := by decide +kernel

/-- The product of the two coefficient polynomials, `MixColumns` last, is 1. -/
theorem mix_invMix_coefficients : ∀ a : Byte,
    mul2 (mul14 a) ^^^ mul3 (mul9 a) ^^^ mul13 a ^^^ mul11 a = a ∧
    mul2 (mul11 a) ^^^ mul3 (mul14 a) ^^^ mul9 a ^^^ mul13 a = 0 ∧
    mul2 (mul13 a) ^^^ mul3 (mul11 a) ^^^ mul14 a ^^^ mul9 a = 0 ∧
    mul2 (mul9 a) ^^^ mul3 (mul13 a) ^^^ mul11 a ^^^ mul14 a = 0 := by decide +kernel

theorem invMixRow_mixRow (a0 a1 a2 a3 : Byte) :
    invMixRow (mixRow a0 a1 a2 a3) (mixRow a1 a2 a3 a0) (mixRow a2 a3 a0 a1) (mixRow a3 a0 a1 a2) = a0 := by
  obtain ⟨h0, -, -, -⟩ := invMix_mix_coefficients a0
  obtain ⟨-, h1, -, -⟩ := invMix_mix_coefficients a1
  obtain ⟨-, -, h2, -⟩ := invMix_mix_coefficients a2
  obtain ⟨-, -, -, h3⟩ := invMix_mix_coefficients a3
  calc
    _ = (mul14 (mul2 a0) ^^^ mul11 a0 ^^^ mul13 a0 ^^^ mul9 (mul3 a0)) ^^^
        (mul14 (mul3 a1) ^^^ mul11 (mul2 a1) ^^^ mul13 a1 ^^^ mul9 a1) ^^^
        (mul14 a2 ^^^ mul11 (mul3 a2) ^^^ mul13 (mul2 a2) ^^^ mul9 a2) ^^^
        (mul14 a3 ^^^ mul11 a3 ^^^ mul13 (mul3 a3) ^^^ mul9 (mul2 a3)) := by
      simp only [invMixRow, mixRow, mul9_xor, mul11_xor, mul13_xor, mul14_xor]
      ac_rfl
    _ = a0 := by simp [h0, h1, h2, h3]

theorem mixRow_invMixRow (a0 a1 a2 a3 : Byte) :
    mixRow (invMixRow a0 a1 a2 a3) (invMixRow a1 a2 a3 a0) (invMixRow a2 a3 a0 a1) (invMixRow a3 a0 a1 a2) = a0 := by
  obtain ⟨h0, -, -, -⟩ := mix_invMix_coefficients a0
  obtain ⟨-, h1, -, -⟩ := mix_invMix_coefficients a1
  obtain ⟨-, -, h2, -⟩ := mix_invMix_coefficients a2
  obtain ⟨-, -, -, h3⟩ := mix_invMix_coefficients a3
  calc
    _ = (mul2 (mul14 a0) ^^^ mul3 (mul9 a0) ^^^ mul13 a0 ^^^ mul11 a0) ^^^
        (mul2 (mul11 a1) ^^^ mul3 (mul14 a1) ^^^ mul9 a1 ^^^ mul13 a1) ^^^
        (mul2 (mul13 a2) ^^^ mul3 (mul11 a2) ^^^ mul14 a2 ^^^ mul9 a2) ^^^
        (mul2 (mul9 a3) ^^^ mul3 (mul13 a3) ^^^ mul11 a3 ^^^ mul14 a3) := by
      simp only [invMixRow, mixRow, mul2_xor, mul3_xor]
      ac_rfl
    _ = a0 := by simp [h0, h1, h2, h3]

/-! ### The round functions undone -/

/-- A column map undone on every column of four bytes is undone on the block (rules R130, R131). -/
theorem onColumns_onColumns {f g : Byte → Byte → Byte → Byte → KeyWord}
    (h : ∀ a0 a1 a2 a3, f (g a0 a1 a2 a3)[0] (g a0 a1 a2 a3)[1] (g a0 a1 a2 a3)[2] (g a0 a1 a2 a3)[3] =
      #v[a0, a1, a2, a3]) (s : Block) : onColumns f (onColumns g s) = s := by
  apply block_ext_columns
  intro c k hc hk
  have h0 := onColumns_get g s c 0 hc (by decide)
  simp only [Nat.add_zero] at h0
  rw [onColumns_get f _ c k hc hk, h0, onColumns_get g s c 1 hc (by decide),
    onColumns_get g s c 2 hc (by decide), onColumns_get g s c 3 hc (by decide)]
  simp only [h]
  match k, hk with
  | 0, _ | 1, _ | 2, _ | 3, _ => rfl

theorem invMixColumns_mixColumns (s : Block) : invMixColumns (mixColumns s) = s :=
  onColumns_onColumns (fun a0 a1 a2 a3 => by simp [mixColumn_eq, invMixColumn_eq, invMixRow_mixRow]) s

theorem mixColumns_invMixColumns (s : Block) : mixColumns (invMixColumns s) = s :=
  onColumns_onColumns (fun a0 a1 a2 a3 => by simp [mixColumn_eq, invMixColumn_eq, mixRow_invMixRow]) s

/-- Row `k` of a block after `ShiftRows` comes from `k` columns to the right (rule R129). -/
theorem shiftRows_get (s : Block) {c k : Nat} (hc : c < 4) (hk : k < 4) :
    (shiftRows s)[4 * c + k] = s[4 * ((c + k) % 4) + k] := by
  have hcol : (4 * c + k) / 4 = c := by omega
  have hrow : (4 * c + k) % 4 = k := by omega
  simp only [shiftRows, Vector.getElem_ofFn, hcol, hrow, Nat.add_comm k (4 * _)]

theorem invShiftRows_get (s : Block) {c k : Nat} (hc : c < 4) (hk : k < 4) :
    (invShiftRows s)[4 * c + k] = s[4 * ((c + 4 - k) % 4) + k] := by
  have hcol : (4 * c + k) / 4 = c := by omega
  have hrow : (4 * c + k) % 4 = k := by omega
  simp only [invShiftRows, Vector.getElem_ofFn, hcol, hrow, Nat.add_comm k (4 * _)]

theorem invShiftRows_shiftRows (s : Block) : invShiftRows (shiftRows s) = s := by
  apply block_ext_columns
  intro c k hc hk
  have hback : ((c + 4 - k) % 4 + k) % 4 = c := by omega
  rw [invShiftRows_get _ hc hk, shiftRows_get _ (Nat.mod_lt _ (by decide)) hk]
  simp only [hback]

theorem shiftRows_invShiftRows (s : Block) : shiftRows (invShiftRows s) = s := by
  apply block_ext_columns
  intro c k hc hk
  have hback : ((c + k) % 4 + 4 - k) % 4 = c := by omega
  rw [shiftRows_get _ hc hk, invShiftRows_get _ (Nat.mod_lt _ (by decide)) hk]
  simp only [hback]

theorem invSubBytes_subBytes (s : Block) : invSubBytes (subBytes s) = s := by
  apply Vector.ext
  intro i hi
  rw [invSubBytes_get, subBytes_get, invSbox_sbox]

theorem subBytes_invSubBytes (s : Block) : subBytes (invSubBytes s) = s := by
  apply Vector.ext
  intro i hi
  rw [subBytes_get, invSubBytes_get, sbox_invSbox]

theorem addRoundKey_addRoundKey (s rk : Block) : addRoundKey (addRoundKey s rk) rk = s :=
  xorBlock_xorBlock s rk

/-! ### The cipher undone (rules R132, R133) -/

/-- Decrypting a ciphertext passes back through the states of its encryption: after `n` middle rounds it stands at
the state of round `9 − n`, substituted and shifted. -/
theorem decryptState_aesEncrypt (K P : Block) {n : Nat} (hn : n ≤ 9) :
    decryptState K (aesEncrypt K P) n = shiftRows (subBytes (encryptState K P (9 - n))) := by
  induction n with
  | zero => exact addRoundKey_addRoundKey _ _
  | succ n ih =>
    have hround : 9 - n = 9 - (n + 1) + 1 := by omega
    rw [decryptState, ih (by omega), invShiftRows_shiftRows, invSubBytes_subBytes, hround, encryptState,
      addRoundKey_addRoundKey, invMixColumns_mixColumns]

theorem aesDecrypt_aesEncrypt (K P : Block) : aesDecrypt K (aesEncrypt K P) = P := by
  rw [aesDecrypt, decryptState_aesEncrypt K P le_rfl, invShiftRows_shiftRows, invSubBytes_subBytes]
  exact addRoundKey_addRoundKey _ _

/-- Encrypting a decrypted block passes back through the states of its decryption: after round `r` it stands before
the round key that the decryption adds next. -/
theorem encryptState_aesDecrypt (K C : Block) {r : Nat} (hr : r ≤ 9) :
    encryptState K (aesDecrypt K C) r = invSubBytes (invShiftRows (decryptState K C (9 - r))) := by
  induction r with
  | zero => exact addRoundKey_addRoundKey _ _
  | succ r ih =>
    have hround : 9 - r = 9 - (r + 1) + 1 := by omega
    have hkey : 9 - (9 - (r + 1)) = r + 1 := by omega
    rw [encryptState, ih (by omega), subBytes_invSubBytes, shiftRows_invShiftRows, hround, decryptState, hkey,
      mixColumns_invMixColumns, addRoundKey_addRoundKey]

theorem aesEncrypt_aesDecrypt (K C : Block) : aesEncrypt K (aesDecrypt K C) = C := by
  rw [aesEncrypt, encryptState_aesDecrypt K C le_rfl, subBytes_invSubBytes, shiftRows_invShiftRows]
  exact addRoundKey_addRoundKey _ _

end Sys2Proof.Machine
end

section
/-! PROOFS. One-block CBC and the two-pass frame transforms (rules R73, R78, R81, R83). -/

namespace Sys2Proof.Machine

/-! ### One-block CBC (rules R72, R73) -/

theorem cbc1Decrypt_cbc1Encrypt (K IV P : Block) : cbc1Decrypt K IV (cbc1Encrypt K IV P) = P := by
  rw [cbc1Decrypt, cbc1Encrypt, aesDecrypt_aesEncrypt, xorBlock_xorBlock]

theorem cbc1Encrypt_cbc1Decrypt (K IV C : Block) : cbc1Encrypt K IV (cbc1Decrypt K IV C) = C := by
  rw [cbc1Encrypt, cbc1Decrypt, xorBlock_xorBlock, aesEncrypt_aesDecrypt]

/-- Settles O22: the block cipher and the exclusive-or with the IV are each undone. -/
theorem oneBlockCbcInverse : Obligations.OneBlockCbcInverse :=
  ⟨fun _ _ _ => rfl, cbc1Decrypt_cbc1Encrypt, cbc1Encrypt_cbc1Decrypt⟩

/-! ### A pass over a buffer of two pieces -/

/-- A block cut at an index is the leading block of what follows it. -/
theorem blockAt_eq_toBlock_drop (F : List Byte) (a : Nat) : blockAt F a = toBlock (F.drop a) := by
  simp [blockAt, toBlock]

/-- The pass over the leading block (rules R78, R81). -/
theorem passAt_zero (f : Block → Block) (F : List Byte) :
    passAt f 0 F = (f (toBlock F)).toList ++ F.drop 16 := by
  simp [passAt, putBlock, toBlock]

/-- A leading pass that reaches from a short piece into the next one. -/
theorem passAt_zero_append_short (f : Block → Block) {A B : List Byte} (h : A.length ≤ 16) :
    passAt f 0 (A ++ B) =
      (f (toBlock (A ++ B.take (16 - A.length)))).toList ++ B.drop (16 - A.length) := by
  have htake : (A ++ B).take 16 = (A ++ B.take (16 - A.length)).take 16 := by
    rw [List.take_append, List.take_append, List.take_take, Nat.min_self]
  rw [passAt_zero, toBlock, blockAt_zero_congr htake, List.drop_append, List.drop_eq_nil_of_le h]
  rfl

/-- A leading pass that stays in the first piece. -/
theorem passAt_zero_append_long (f : Block → Block) {A B : List Byte} (h : 16 ≤ A.length) :
    passAt f 0 (A ++ B) = (f (toBlock A)).toList ++ A.drop 16 ++ B := by
  have htake : (A ++ B).take 16 = A.take 16 := List.take_append_of_le_length h
  rw [passAt_zero, toBlock, blockAt_zero_congr htake, List.drop_append_of_le_length h, List.append_assoc]
  rfl

/-- The pass over the tail block (rules R78, R81). -/
theorem passAt_tail (f : Block → Block) {F : List Byte} {n : Nat} (hn : F.length = n) :
    passAt f (n - 16) F = F.take (n - 16) ++ (f (toBlock (F.drop (n - 16)))).toList := by
  have hend : F.drop (n - 16 + 16) = [] := List.drop_eq_nil_of_le (by omega)
  rw [passAt, putBlock, blockAt_eq_toBlock_drop, hend, List.append_nil]

/-- A tail pass that starts inside the leading block. -/
theorem passAt_tail_append_short (f : Block → Block) (V : Block) {B : List Byte} {n : Nat}
    (hn : B.length = n - 16) (h16 : 16 ≤ n) (h32 : n ≤ 32) :
    passAt f (n - 16) (V.toList ++ B) =
      V.toList.take (n - 16) ++ (f (toBlock (V.toList.drop (n - 16) ++ B))).toList := by
  have hV : V.toList.length = 16 := Vector.length_toList
  rw [passAt_tail f (by rw [List.length_append]; omega), List.take_append_of_le_length (by omega),
    List.drop_append_of_le_length (by omega)]

/-- A tail pass that starts behind the leading block. -/
theorem passAt_tail_append_long (f : Block → Block) (V : Block) {B : List Byte} {n : Nat}
    (hn : B.length = n - 16) (h32 : 32 ≤ n) :
    passAt f (n - 16) (V.toList ++ B) =
      V.toList ++ B.take (n - 32) ++ (f (toBlock (B.drop (n - 32)))).toList := by
  have hV : V.toList.length = 16 := Vector.length_toList
  have hcut : n - 16 = V.toList.length + (n - 32) := by omega
  rw [passAt_tail f (by rw [List.length_append]; omega), hcut, List.take_length_add_append,
    List.drop_length_add_append]

/-! ### The transforms by length -/

/-- A frame of one block: one pass (rule R78). -/
theorem encryptFrame_oneBlock (K IV : Block) {P : List Byte} (h : P.length = 16) :
    encryptFrame K IV P = (cbc1Encrypt K IV (blockAt P 0)).toList := by
  simp [encryptFrame, h, passAt_zero, toBlock]

/-- A longer frame: the tail pass works on what the leading pass wrote (rules R78, R196). -/
theorem encryptFrame_twoPass (K IV : Block) {P : List Byte} (h : 16 < P.length) :
    encryptFrame K IV P = passAt (cbc1Encrypt K IV) (P.length - 16)
      ((cbc1Encrypt K IV (blockAt P 0)).toList ++ P.drop 16) := by
  rw [encryptFrame, if_pos h, passAt_zero]
  rfl

/-- A frame of one block: one pass (rule R81). -/
theorem decryptFrame_oneBlock (K IV : Block) {C : List Byte} (h : C.length = 16) :
    decryptFrame K IV C = (cbc1Decrypt K IV (blockAt C 0)).toList := by
  simp [decryptFrame, h, passAt_zero, toBlock]

/-- A longer frame: the leading pass works on what the tail pass wrote (rules R81, R196). -/
theorem decryptFrame_twoPass (K IV : Block) {C : List Byte} (h : 16 < C.length) :
    decryptFrame K IV C = passAt (cbc1Decrypt K IV) 0
      (C.take (C.length - 16) ++ (cbc1Decrypt K IV (blockAt C (C.length - 16))).toList) := by
  rw [decryptFrame, if_pos h, passAt_tail _ rfl, blockAt_eq_toBlock_drop]

/-- Settles O26: between the passes the buffer is the first ciphertext block and the rest of the frame; the tail pass
starts inside that block below length 32 and behind it from 32 on. -/
theorem encryptByLength : Obligations.EncryptByLength := by
  intro K IV P n E1
  have hrest : (P.drop 16).length = n - 16 := List.length_drop
  have behind (hn : 32 ≤ n) : encryptFrame K IV P =
      E1.toList ++ (P.drop 16).take (n - 32) ++ (cbc1Encrypt K IV (blockAt P (n - 16))).toList := by
    have hcut : 16 + (n - 32) = n - 16 := by omega
    rw [encryptFrame_twoPass K IV (by omega : 16 < P.length), passAt_tail_append_long _ _ hrest hn,
      List.drop_drop, hcut, blockAt_eq_toBlock_drop P (n - 16)]
  refine ⟨encryptFrame_oneBlock K IV, fun h16 h32 => ?_, fun hn => ?_, fun hn => behind hn.le⟩
  · exact (encryptFrame_twoPass K IV h16).trans (passAt_tail_append_short _ E1 hrest h16.le h32.le)
  · simpa [hn] using behind hn.ge

/-- Settles O27: between the passes the buffer is the first `n − 16` bytes and the decrypted tail block; the leading
pass reaches into that block below length 32 and stays in front of it from 32 on. -/
theorem decryptByLength : Obligations.DecryptByLength := by
  intro K IV C n T
  have hfront : (C.take (n - 16)).length = n - 16 := List.length_take_of_le (Nat.sub_le _ _)
  refine ⟨fun hn => ?_, fun h16 h32 => ?_, fun hn => ?_⟩
  · have hstart : n - 16 = 0 := by omega
    simpa only [T, hstart] using decryptFrame_oneBlock K IV hn
  · have hinto : 16 - (n - 16) = 32 - n := by omega
    rw [decryptFrame_twoPass K IV h16, passAt_zero_append_short _ (hfront.trans_le (by omega)), hfront, hinto]
  · have hlead : (C.take (n - 16)).take 16 = C.take 16 := by
      rw [List.take_take, Nat.min_eq_left (by omega)]
    have hmiddle : (C.take (n - 16)).drop 16 = (C.drop 16).take (n - 32) := by
      rw [List.drop_take, Nat.sub_sub]
    have hlong : 16 ≤ (C.take (n - 16)).length := by omega
    rw [decryptFrame_twoPass K IV (by omega : 16 < C.length), passAt_zero_append_long _ hlong,
      toBlock, blockAt_zero_congr hlead, hmiddle]

/-- Each pass undoes the pass of the other transform at its index, in the opposite order (rule R83). -/
theorem decryptFrame_encryptFrame (K IV : Block) {F : List Byte} (h : 16 ≤ F.length) :
    decryptFrame K IV (encryptFrame K IV F) = F := by
  have hlead : (passAt (cbc1Encrypt K IV) 0 F).length = F.length := passAt_length _ 0 F h
  have undo := passAt_passAt _ _ (cbc1Decrypt_cbc1Encrypt K IV)
  rw [decryptFrame, encryptFrame_length K IV h, encryptFrame]
  split
  · rw [undo _ _ (by omega), undo 0 F h]
  · exact undo 0 F h

theorem encryptFrame_decryptFrame (K IV : Block) {F : List Byte} (h : 16 ≤ F.length) :
    encryptFrame K IV (decryptFrame K IV F) = F := by
  have undo := passAt_passAt _ _ (cbc1Encrypt_cbc1Decrypt K IV)
  rw [encryptFrame, decryptFrame_length K IV h, decryptFrame]
  split
  · have htail : (passAt (cbc1Decrypt K IV) (F.length - 16) F).length = F.length :=
      passAt_length _ _ F (by omega)
    rw [undo 0 _ (by omega), undo _ F (by omega)]
  · exact undo 0 F h

end Sys2Proof.Machine
end

section
/-! PROOFS. CENC and CDEC (rules R74, R77, R80, R83, R85). -/

namespace Sys2Proof.Machine

variable {s t : State}

/-! ### Where CENC and CDEC are refused -/

theorem transformCommand_notReady (f : Block → Block → List Byte → List Byte) (data : List Byte)
    (hc : s.cipher = none) : transformCommand f data s = .next (s.fail .eNotReady) := by
  simp [transformCommand, hc]

theorem transformCommand_tooShort (f : Block → Block → List Byte → List Byte) {data : List Byte}
    (hc : s.cipher ≠ none) (h : data.length < 16) :
    transformCommand f data s = .next (s.fail .eValidation) := by
  obtain ⟨c, hc⟩ := Option.ne_none_iff_exists'.1 hc
  simp [transformCommand, hc, (tooShort_iff data).2 h]

theorem transformCommand_tooLong (f : Block → Block → List Byte → List Byte) {data : List Byte}
    (hc : s.cipher ≠ none) (h : Config.frameMax < data.length) :
    transformCommand f data s = .next (s.fail .eCapacity) := by
  obtain ⟨c, hc⟩ := Option.ne_none_iff_exists'.1 hc
  have hshort : tooShort data = false := by
    have := Config.frameMax_ge
    rw [← Bool.not_eq_true, tooShort_iff]; omega
  simp [transformCommand, hc, hshort, (tooLong_iff data).2 h]

/-- Settles O25: one refusal after the other, for the transform that both commands share. -/
theorem cipherCommandsRefuse : Obligations.CipherCommandsRefuse := by
  intro data s i hi
  have refused_by {f st} (h : transformCommand f data s = .next (s.fail st)) :
      ∃ t, transformCommand f data s = .next t ∧ Answered s t [st.code] ∧ UnitsUnchanged s t ∧
        BufferUnchanged s t := ⟨_, h, respond_frame s st []⟩
  obtain rfl | rfl := hi
  all_goals exact ⟨fun hc => refused_by (transformCommand_notReady _ data hc),
    fun hc h => refused_by (transformCommand_tooShort _ hc h),
    fun hc h => refused_by (transformCommand_tooLong _ hc h)⟩

/-! ### Where CENC and CDEC are performed -/

/-- Settles O23: no check fails, and CENC only answers. -/
theorem cencCompletes : Obligations.CencCompletes :=
  fun _ s _ hc hmin hmax => ⟨_, transformCommand_ok encryptFrame hc hmin hmax, respond_frame s .ok _⟩

/-- Settles O24: no check fails, and CDEC only answers. -/
theorem cdecCompletes : Obligations.CdecCompletes :=
  fun _ s _ hc hmin hmax => ⟨_, transformCommand_ok decryptFrame hc hmin hmax, respond_frame s .ok _⟩

/-- An `OK` answer carries as many bytes as the data, where the transform keeps the length (rule R74). -/
theorem transformCommand_payload_length {f : Block → Block → List Byte → List Byte} {data payload : List Byte}
    (hf : ∀ K IV, 16 ≤ data.length → (f K IV data).length = data.length)
    (h : transformCommand f data s = .next t) (hP : Answered s t (0x00 :: payload)) :
    payload.length = data.length := by
  obtain ⟨P, hP', ⟨e, rfl, he⟩ | ⟨c, -, -, hlen⟩⟩ := transformCommand_response hf h
  · cases hP.unique hP'
    exact absurd he (by decide)
  · cases hP.unique hP'
    rw [List.length_cons] at hlen
    omega

/-- Settles O28: both transforms keep the length. -/
theorem noPadding : Obligations.NoPadding := by
  refine ⟨fun K IV F h => ⟨encryptFrame_length K IV h, decryptFrame_length K IV h⟩,
    fun data payload s t i hi h => ?_⟩
  obtain rfl | rfl := hi
  · exact transformCommand_payload_length (fun K IV => encryptFrame_length K IV) h
  · exact transformCommand_payload_length (fun K IV => decryptFrame_length K IV) h

/-- Settles O29: by the two compositions of the transforms; CENC leaves the cipher unit that CDEC then reads. -/
theorem cipherRoundTrip : Obligations.CipherRoundTrip := by
  refine ⟨fun K IV F h => ⟨decryptFrame_encryptFrame K IV h, encryptFrame_decryptFrame K IV h⟩,
    fun x y s t hvalid hmin hmax h hy => ?_⟩
  obtain ⟨c, hc⟩ := Option.isSome_iff_exists.1 hvalid
  cases (transformCommand_ok encryptFrame hc hmin hmax).symm.trans h
  cases hy.unique (answered_respond s .ok _)
  have hlen := encryptFrame_length c.skey c.siv hmin
  have hback := transformCommand_ok (s := s.respond .ok (encryptFrame c.skey c.siv x)) decryptFrame hc
    (hlen ▸ hmin) (hlen ▸ hmax)
  rw [decryptFrame_encryptFrame c.skey c.siv hmin] at hback
  exact ⟨_, hback, answered_respond _ .ok x⟩

/-- The plaintext block of the public vector (rule R85). -/
def nistPlain : List Byte :=
  [0x6b, 0xc1, 0xbe, 0xe2, 0x2e, 0x40, 0x9f, 0x96, 0xe9, 0x3d, 0x7e, 0x11, 0x73, 0x93, 0x17, 0x2a]

/-- Settles O31: no byte 0 to 5 of the key or the IV is 0xFF, so the zero salt changes neither; the one block is
encrypted by evaluation. -/
theorem nistVectorThroughCommands : Obligations.NistVectorThroughCommands := by
  unfold Obligations.NistVectorThroughCommands
  intro key iv salt s
  have hsalt : toSalt salt = Vector.replicate 6 0 := by decide
  have hkey : Salted (toBlock key) := by unfold Salted; decide
  have hiv : Salted (toBlock iv) := by unfold Salted; decide
  have hcinit := execCinit_ok (key := key) (iv := iv) (salt := salt) s ⟨rfl, rfl, rfl⟩
  rw [hsalt, salt16_zero hkey, salt16_zero hiv] at hcinit
  have hfits : nistPlain.length ≤ Config.frameMax := Nat.le_trans (by decide) Config.frameMax_ge
  obtain ⟨u, hcenc, hP, -⟩ := cencCompletes nistPlain
    ((s.constructCipher (toBlock key) (toBlock iv)).respond .ok []) _ rfl (by decide) hfits
  have hcipher : encryptFrame (toBlock key) (toBlock iv) nistPlain =
      [0x76, 0x49, 0xab, 0xac, 0x81, 0x19, 0xb2, 0x46, 0xce, 0xe9, 0x8e, 0x9b, 0x12, 0xe9, 0x19, 0x7d] := by
    decide +kernel
  exact ⟨_, u, hcinit, rfl, hcenc, hcipher ▸ hP⟩

end Sys2Proof.Machine
end

section
/-! PROOFS. A wide field as the groups it is read by, and a narrow one as the payload it is answered in (rules R33, R97,
R98). -/

namespace Sys2Proof.Machine

theorem byteGroups_succ (X : List Byte) (s n : Nat) :
    byteGroups X s (n + 1) = byteGroups X s n ++ [ubits X (s + 8 * n) 8] := by
  simp [byteGroups, List.range_succ]

/-- Groups put together most significant first are the whole field (rules R33, R98). -/
theorem bigEndianValue_byteGroups (X : List Byte) (s n : Nat) :
    bigEndianValue (byteGroups X s n) = ubits X s (8 * n) := by
  induction n with
  | zero => rfl
  | succ n ih =>
    rw [byteGroups_succ, bigEndianValue_concat, ih, Nat.mul_succ 8 n, ubits_add]
    rfl

/-- A big-endian field of whole groups is the bits it spans (rule R98). -/
theorem fieldValue_bigEndian (X : List Byte) (s n : Nat) (hn : 1 < n) :
    fieldValue X s (8 * n) false = ubits X s (8 * n) := by
  rw [fieldValue_wide X s false (by omega), Nat.mul_div_cancel_left n (by decide)]
  exact bigEndianValue_byteGroups X s n

/-- The bytes of a value are read back from it by shifts of whole bytes (rule R98). -/
theorem bigEndianValue_digits {a b c d : Nat} (hb : b < 256) (hc : c < 256) (hd : d < 256) :
    let v := bigEndianValue [a, b, c, d]
    v % 256 = d ∧ v / 256 % 256 = c ∧ v / 65536 % 256 = b ∧ v / 16777216 = a := by
  simp only [bigEndianValue, List.foldl]
  omega

/-- The little-endian 32-bit value is the reversal of the four bytes of the big-endian one (rule R98). -/
theorem fieldValue_32_byteSwap (X : List Byte) (s : Nat) :
    let v := fieldValue X s 32 false
    fieldValue X s 32 true =
      v % 256 * 16777216 + v / 256 % 256 * 65536 + v / 65536 % 256 * 256 + v / 16777216 := by
  have g_lt (j) : ubits X (s + 8 * j) 8 < 256 := ubits_lt X _ 8
  obtain ⟨h3, h2, h1, h0⟩ := bigEndianValue_digits (a := ubits X (s + 8 * 0) 8) (g_lt 1) (g_lt 2) (g_lt 3)
  simp only [fieldValue_32, Bool.false_eq_true, if_true, if_false, h3, h2, h1, h0]
  simp only [bigEndianValue, List.foldl]
  omega

/-- Settles O36: the groups in rising order are the whole field, in falling order its bytes reversed. -/
theorem wideValueForms : Obligations.WideValueForms := by
  intro X s
  have h16 : fieldValue X s 16 false = ubits X s 16 := fieldValue_bigEndian X s 2 (by decide)
  have h32 : fieldValue X s 32 false = ubits X s 32 := fieldValue_bigEndian X s 4 (by decide)
  refine ⟨?_, h16 ▸ fieldValue_16_byteSwap X s, h32 ▸ fieldValue_32_byteSwap X s⟩
  rintro n (rfl | rfl)
  · exact h16
  · exact h32

/-- The payload of a value of one byte: three zero bytes, then the byte (rules R58, R97). -/
theorem valueBytes_of_lt {v : Nat} (hv : v < 256) :
    valueBytes (zext32 v) = [0x00, 0x00, 0x00, BitVec.ofNat 8 v] := by
  have hzeros : bigEndianValue [0, 0, 0, v] = v := by simp [bigEndianValue]
  simpa [hzeros] using valueBytes_bigEndianValue (a := 0) (b := 0) (c := 0) (by decide) (by decide) hv

end Sys2Proof.Machine
end

section
/-! PROOFS. BLOAD and BREAD (rules R90 to R100). -/

namespace Sys2Proof.Machine

/-- Settles O32: by what BLOAD does on either side of `FRAME_MAX`, which is at least the example's 20 bytes. -/
theorem bloadLoadsOrRefuses : Obligations.BloadLoadsOrRefuses := by
  refine ⟨fun data s hmax => ?_, fun data s hmax => ?_, ?_⟩
  · exact ⟨_, execBload_ok s hmax, rfl, rfl, fun _ => rfl, rfl, rfl, rfl, rfl⟩
  · exact ⟨_, execBload_refused s hmax, respond_frame s .eCapacity []⟩
  · intro s X
    have hfits : X.length ≤ Config.frameMax := Config.frameMax_ge
    exact ⟨_, (accept_ok s (decode_opBload X)).trans (execBload_ok s hfits), rfl, rfl, rfl, rfl⟩

/-- BREAD before any BLOAD, at every length and start (rule R93). -/
theorem execBread_notReady {s : State} (start : Int) (n : Nat) (le : Bool) (hr : s.reader = none) :
    execBread start n le s = .next (s.fail .eNotReady) := by
  simp [execBread, hr]

/-- BREAD of a length that is not 1 to 8, 16 or 32, at every start (rules R94, R95). -/
theorem execBread_illegalLength {s : State} {r : ReaderUnit} {n : Nat} (start : Int) (le : Bool)
    (hr : s.reader = some r) (hn : legalBitLength n = false) :
    execBread start n le s = .next (s.fail .eInvalidArg) := by
  simp [execBread, hr, hn]

/-- Settles O39: each of the two tests that come before the bounds refuses, and a refusal only answers. -/
theorem breadRefusals : Obligations.BreadRefusals := by
  refine ⟨fun s r start n le hr hn => ?_, fun s start n le hr => ?_⟩
  · have hillegal : legalBitLength n = false := by
      rw [← Bool.not_eq_true, legalBitLength_iff]
      omega
    exact ⟨_, execBread_illegalLength start le hr hillegal, respond_frame s .eInvalidArg []⟩
  · exact ⟨_, execBread_notReady start n le hr, respond_frame s .eNotReady []⟩

/-- Settles O38: the bounds test fails, so BREAD raises `DIAG` and answers the bytes of 0. -/
theorem breadOutOfBounds : Obligations.BreadOutOfBounds := by
  intro s r start n le hr hn hb
  have hout := execBread_outOfBounds le hr ((legalBitLength_iff n).2 hn) ((inBounds_eq_false_iff start n r.len).2 hb)
  exact ⟨_, hout, ⟨rfl, rfl⟩, rfl, rfl, rfl, rfl, fun _ => rfl⟩

/-- Settles O34: a field of up to 8 bits is read in one piece, fits one byte and is the sum of its bits. -/
theorem breadNarrowCompletes : Obligations.BreadNarrowCompletes := by
  intro s r start n le hr hmin hmax hb
  have hlt : ubits r.buf start n < 2 ^ n := ubits_lt r.buf start n
  have hbyte : ubits r.buf start n < 256 := hlt.trans_le (Nat.pow_le_pow_right (by decide) hmax)
  obtain ⟨t, ht, hP, hframe⟩ := exec_bread_inBounds le hr ((legalBitLength_iff n).2 (.inl ⟨hmin, hmax⟩)) hb
  rw [fieldValue_narrow _ _ le hmax, valueBytes_of_lt hbyte] at hP
  exact ⟨t, _, ht, ubits_eq_sum r.buf start n, hlt, hP, hframe⟩

/-- Settles O41: BREAD only answers or also raises `DIAG`, and which of them, with what answer, is fixed by the reader
unit it leaves. -/
theorem breadIsPureRead : Obligations.BreadIsPureRead := by
  intro s t start n le h
  obtain ⟨st, payload, hr⟩ | hr := execBread_of_reader start n le s.reader
  · cases (hr s rfl).symm.trans h
    exact ⟨rfl, rfl, ⟨rfl, fun _ => rfl⟩, id, _, _, answered_respond s st payload, hr _ rfl,
      answered_respond _ st payload⟩
  · cases (hr s rfl).symm.trans h
    exact ⟨rfl, rfl, ⟨rfl, fun _ => rfl⟩, fun _ => rfl, _, _, ⟨rfl, rfl⟩, hr _ rfl, rfl, rfl⟩

/-- Settles O42: a length of 1 to 8 is neither 16 nor 32. -/
theorem narrowReadIgnoresByteOrder : Obligations.NarrowReadIgnoresByteOrder :=
  fun s start _ _ hmax => execBread_byteOrder start true false s (by omega) (by omega)

end Sys2Proof.Machine
end

section
/-! PROOFS. Two runs from states that differ at most in the contents of the cipher unit: each write of the state, then
each command but CENC and CDEC, keeps them so (rules R15, R112, R182). -/

namespace Sys2Proof.Machine

variable {s t : State}

/-! ### The writes of the state -/

theorem SameButKey.respond (h : SameButKey s t) (st : Status) (payload : List Byte) :
    SameButKey (s.respond st payload) (t.respond st payload) := by
  obtain ⟨hc, hr, hd, hs, hp⟩ := h
  exact ⟨hc, hr, hd, hs, congrArg (List.cons _) hp⟩

/-- The unit is replaced as a whole, and is constructed in both states after it (rule R12). -/
theorem SameButKey.constructCipher (h : SameButKey s t) (skey siv : Block) :
    SameButKey (s.constructCipher skey siv) (t.constructCipher skey siv) := by
  obtain ⟨-, hr, hd, hs, hp⟩ := h
  exact ⟨rfl, hr, hd, hs, hp⟩

theorem SameButKey.loadReader (h : SameButKey s t) (data : List Byte) :
    SameButKey (s.loadReader data) (t.loadReader data) := by
  obtain ⟨hc, -, hd, hs, hp⟩ := h
  exact ⟨hc, rfl, hd, hs, hp⟩

theorem SameButKey.raiseDiag (h : SameButKey s t) : SameButKey s.raiseDiag t.raiseDiag := by
  obtain ⟨hc, hr, -, hs, hp⟩ := h
  exact ⟨hc, hr, rfl, hs, hp⟩

/-- The reset state holds no cipher unit, whatever was in it before (rule R24). -/
theorem SameButKey.clearUnits (h : SameButKey s t) : SameButKey s.clearUnits t.clearUnits := by
  obtain ⟨-, -, -, hs, hp⟩ := h
  exact ⟨rfl, rfl, rfl, hs, hp⟩

/-! ### What STAT reads -/

/-- STATUS tells whether the cipher unit is constructed, and nothing of its contents (rule R20). -/
theorem SameButKey.statusByte_eq (h : SameButKey s t) : s.statusByte = t.statusByte := by
  obtain ⟨hc, hr, hd, -, -⟩ := h
  unfold State.statusByte State.bValid
  rw [hc, hr, hd]

/-! ### The commands -/

/-- The relational step: every command but CENC and CDEC performs the same writes in both states, with the same
response. -/
theorem SameButKey.exec_next {i : Instr} (h : SameButKey s t) (hi : ∀ d, i ≠ .cenc d ∧ i ≠ .cdec d) :
    ∃ s' t', exec i s = .next s' ∧ exec i t = .next t' ∧ SameButKey s' t' := by
  cases i with
  | cinit key iv salt =>
    by_cases hlen : key.length = 16 ∧ iv.length = 16 ∧ salt.length = 6
    · exact ⟨_, _, execCinit_ok s hlen, execCinit_ok t hlen, (h.constructCipher _ _).respond .ok []⟩
    · exact ⟨_, _, execCinit_refused s hlen, execCinit_refused t hlen, h.respond .eValidation []⟩
  | cenc data => exact absurd rfl (hi data).1
  | cdec data => exact absurd rfl (hi data).2
  | bload data =>
    obtain hlen | hlen := Nat.lt_or_ge Config.frameMax data.length
    · exact ⟨_, _, execBload_refused s hlen, execBload_refused t hlen, h.respond .eCapacity []⟩
    · exact ⟨_, _, execBload_ok s hlen, execBload_ok t hlen, (h.loadReader data).respond .ok []⟩
  | bread start n le =>
    have ⟨_, hreader, _⟩ := h
    obtain ⟨st, payload, hr⟩ | hr := execBread_of_reader start n le s.reader
    · exact ⟨_, _, hr s rfl, hr t hreader.symm, h.respond st payload⟩
    · exact ⟨_, _, hr s rfl, hr t hreader.symm, h.raiseDiag.respond .okOob _⟩
  | stat =>
    have hstatus : SameButKey (s.respond .ok [s.statusByte]) (t.respond .ok [t.statusByte]) :=
      h.statusByte_eq ▸ h.respond .ok [s.statusByte]
    exact ⟨_, _, rfl, rfl, hstatus⟩
  | rst => exact ⟨_, _, rfl, rfl, h.clearUnits.respond .ok []⟩

/-- Settles O55: a refused frame is answered from its bytes alone, and a frame that decodes runs a command other than
CENC and CDEC. -/
theorem keyIsNotReadOut : Obligations.KeyIsNotReadOut := by
  intro Q s t h hQ
  cases hdec : decode Q with
  | ok i =>
    have hi : ∀ d, i ≠ .cenc d ∧ i ≠ .cdec d := fun d => by simpa [hdec] using hQ d
    obtain ⟨s', t', hs, ht, h'⟩ := h.exec_next hi
    exact ⟨s', t', (accept_ok s hdec).trans hs, (accept_ok t hdec).trans ht, h'⟩
  | error e => exact ⟨_, _, accept_error s hdec, accept_error t hdec, h.respond _ []⟩

end Sys2Proof.Machine
end

section
/-! PROOFS. The key expansion as a recurrence on its words (rules R125, R126). -/

namespace Sys2Proof.Machine

theorem rcon_succ {j : Nat} (hj : 1 ≤ j) : rcon (j + 1) = xtime (rcon j) := by
  obtain ⟨k, rfl⟩ := Nat.exists_eq_add_of_le' hj
  rfl

@[simp] theorem xorWord_get (a b : KeyWord) (j : Nat) (h : j < 4) : (xorWord a b)[j] = a[j] ^^^ b[j] := by
  simp [xorWord]

section

variable (K : Block)

/-- Moving the window up by one word moves its last three words down by one place. -/
theorem keyWindow_succ_get (n : Nat) {j : Nat} (hj : j < 3) :
    (keyWindow K (n + 1))[j] = (keyWindow K n)[j + 1] := by
  match j, hj with
  | 0, _ | 1, _ | 2, _ => rfl

/-- The window at `n` holds `w[n]` to `w[n+3]`. -/
theorem keyWindow_get (n : Nat) {j : Nat} (hj : j < 4) : (keyWindow K n)[j] = keyWord K (n + j) := by
  induction j generalizing n with
  | zero => rfl
  | succ j ih => rw [← keyWindow_succ_get K n (by omega), ih (n + 1) (by omega), Nat.add_right_comm, Nat.add_assoc]

/-- The recurrence of rule R126: `w[i+4] = w[i] ⊕ t`. -/
theorem keyWord_add_four (i : Nat) :
    keyWord K (i + 4) = xorWord (keyWord K i) (keyMix (i + 4) (keyWord K (i + 3))) := by
  rw [Nat.add_succ i 3, ← keyWindow_get K i (by decide : 3 < 4), ← keyWindow_get K (i + 1) (by decide : 3 < 4)]
  rfl

theorem keyWord_add_four_of_mod_ne_zero {i : Nat} (hi : (i + 4) % 4 ≠ 0) :
    keyWord K (i + 4) = xorWord (keyWord K i) (keyWord K (i + 3)) := by
  rw [keyWord_add_four, keyMix, if_neg hi]

/-- Every fourth word takes in the word before it rotated, substituted and with its round constant (rule R126). -/
theorem keyWord_add_four_of_mod_eq_zero {i : Nat} (hi : (i + 4) % 4 = 0) :
    keyWord K (i + 4) = xorWord (keyWord K i)
      #v[sbox (keyWord K (i + 3))[1] ^^^ rcon ((i + 4) / 4), sbox (keyWord K (i + 3))[2],
        sbox (keyWord K (i + 3))[3], sbox (keyWord K (i + 3))[0]] := by
  rw [keyWord_add_four, keyMix, if_pos hi]

/-- A round key is four words in a row (rule R126). -/
theorem roundKey_get (r : Nat) {k : Nat} (hk : k < 16) :
    (roundKey K r)[k] = (keyWord K (4 * r + k / 4))[k % 4] := by
  simp [roundKey, keyWindow_get]

theorem roundKey_zero : roundKey K 0 = K := by
  apply Vector.ext
  intro k hk
  have hword : 4 * (k / 4) + k % 4 = k := Nat.div_add_mod k 4
  simp [roundKey, keyWindow, hword]

end

/-- Settles O18: the window of four words, by which the model computes the key expansion, moves along the words of the
spec's recurrence. -/
theorem keyExpansionRecurrence : Obligations.KeyExpansionRecurrence := by
  refine ⟨rfl, fun _ => rcon_succ, fun K => ⟨roundKey_zero K, fun r k => roundKey_get K r k.isLt, ?_, ?_⟩⟩
  · intro i j hi
    simp [keyWord_add_four_of_mod_ne_zero K hi]
  · intro i hi
    simp [keyWord_add_four_of_mod_eq_zero K hi]

end Sys2Proof.Machine
end

section
/-! PROOFS. The statements about the AES primitive (spec file 43). -/

namespace Sys2Proof.Machine

/-! ### The S-box (rule R123) -/

/-- The affine map of rule R123 read backwards: the rotations by 1, 3 and 6 and the constant 0x05. -/
def sboxAffineInv (c : Byte) : Byte := c.rotateLeft 1 ^^^ c.rotateLeft 3 ^^^ c.rotateLeft 6 ^^^ 0x05

theorem sboxAffine_sboxAffineInv : ∀ c : Byte, sboxAffine (sboxAffineInv c) = c := by decide +kernel

theorem sboxAffineInv_sbox_zero : sboxAffineInv (sbox 0) = 0 := by decide

/-- The table of `SBOX`, byte by byte: behind the affine map stands the inverse in the field. -/
theorem gfMul_sboxAffineInv_sbox : ∀ a : Byte, a ≠ 0 → gfMul a (sboxAffineInv (sbox a)) = 1 := by decide +kernel

theorem isGfInverse_sboxAffineInv_sbox (a : Byte) : IsGfInverse a (sboxAffineInv (sbox a)) := by
  obtain rfl | ha := eq_or_ne a 0
  · exact .inl ⟨rfl, sboxAffineInv_sbox_zero⟩
  · exact .inr ⟨ha, gfMul_sboxAffineInv_sbox a ha⟩

/-- Settles O17: the inverse of `a` is `SBOX[a]` taken back through the affine map. -/
theorem sboxFromFieldInverse : Obligations.SboxFromFieldInverse := fun a =>
  ⟨sboxAffineInv (sbox a), isGfInverse_sboxAffineInv_sbox a, (sboxAffine_sboxAffineInv (sbox a)).symm⟩

/-! ### The round functions and the cipher undone (rules R130 to R133) -/

/-- Settles O19: the product of the two coefficient polynomials is 1 in either order. -/
theorem mixColumnsInverse : Obligations.MixColumnsInverse := fun s =>
  ⟨invMixColumns_mixColumns s, mixColumns_invMixColumns s⟩

/-- Settles O20: each of the two passes back through the states of the other, round by round. -/
theorem aesDecryptInvertsEncrypt : Obligations.AesDecryptInvertsEncrypt := fun K X =>
  ⟨aesDecrypt_aesEncrypt K X, aesEncrypt_aesDecrypt K X⟩

/-! ### Known answers (rule R134) -/

/-- Settles O21: the states of round 1 and the two ciphertexts are computed from the literal keys and plaintexts. -/
theorem aesKnownAnswers : Obligations.AesKnownAnswers := by
  unfold Obligations.AesKnownAnswers
  refine ⟨?start, ?subBytes, ?shiftRows, ?mixColumns, ?round1, ?appendixC1, ?appendixB⟩
  all_goals decide +kernel

end Sys2Proof.Machine
end

section
/-! PROOFS. The statements about the host's Gen2 software (spec file 44). -/

namespace Sys2Proof.Machine.Gen2

/-! ### The solved cube (rules R148, R159) -/

/-- Giving a facelet its solved colour changes nothing on the solved cube. -/
theorem solvedFacelets_set_solvedColor (f : Fin 54) :
    solvedFacelets.set f.val (solvedColor f) f.isLt = solvedFacelets := by
  ext j hj
  rw [Vector.getElem_set]
  split
  case isTrue h => subst h; simp [solvedFacelets]
  case isFalse => rfl

/-- A piece in its home slot, unrotated: each facelet takes its own solved colour, wherever the table puts it. -/
theorem placePiece_home {m n : Nat} (table : Vector (Vector (Fin 54) m) n) (i : Fin n) :
    placePiece table solvedFacelets i i.val 0 = solvedFacelets := by
  unfold placePiece
  split
  case isFalse => rfl
  case isTrue =>
    refine List.foldl_fixed' (fun p => ?_) _
    simpa [Nat.mod_eq_of_lt p.isLt] using solvedFacelets_set_solvedColor table[i][p]

/-- Every piece at home and unrotated, for any table. -/
theorem placeAll_home {m n : Nat} (table : Vector (Vector (Fin 54) m) n) {pieces orients : List Int}
    (hpieces : ∀ i : Fin n, pieces.getD i.val (-1) = i.val) (horients : ∀ i : Fin n, orients.getD i.val (-1) = 0) :
    placeAll table pieces orients solvedFacelets = solvedFacelets := by
  refine List.foldl_fixed' (fun i => ?_) _
  rw [hpieces, horients, placePiece_home]

/-- Settles O60: the corners, then the edges, leave the solved facelets as they are. -/
theorem solvedCubeReconstructs : Obligations.SolvedCubeReconstructs := by
  intro t
  have hcorners := placeAll_home t.corner (pieces := [0, 1, 2, 3, 4, 5, 6, 7])
    (orients := [0, 0, 0, 0, 0, 0, 0, 0]) (by decide) (by decide)
  have hedges := placeAll_home t.edge (pieces := [0, 1, 2, 3, 4, 5, 6, 7, 8, 9, 10, 11])
    (orients := [0, 0, 0, 0, 0, 0, 0, 0, 0, 0, 0, 0]) (by decide) (by decide)
  rw [reconstruct, hcorners, hedges]
  decide

/-! ### The requests and the frame (rule R155) -/

/-- No field of the list passes bit 158. -/
theorem requests_end_le : ∀ q ∈ requests, q.1 + q.2 ≤ 159 := by decide

/-- Settles O58: a field that starts at a bit of the frame and ends by bit 158 lies in the 160 bits of 20 bytes; the
last two `elapsed` fields end past bit 127. -/
theorem genTwoRequestsFit : Obligations.GenTwoRequestsFit := by
  refine ⟨fun q hq => ?_, by decide, by decide⟩
  have hend := requests_end_le q hq
  exact ⟨(inBounds_iff _ _ _).2 (by omega), hend⟩

/-! ### The derived last elements (rule R147) -/

/-- What is left to the sum makes the sum. -/
theorem sum_add_deriveToSum (total : Int) (xs : List Nat) : (xs.sum : Int) + deriveToSum total xs = total :=
  add_sub_cancel _ _

theorem deriveMod_lt {m : Nat} (hm : 0 < m) (xs : List Nat) : deriveMod m xs < m := Nat.mod_lt _ hm

/-- The remainder and its complement to `m` make a multiple of `m`. -/
theorem sum_add_deriveMod_mod {m : Nat} (hm : 0 < m) (xs : List Nat) : (xs.sum + deriveMod m xs) % m = 0 := by
  have hle : xs.sum % m ≤ m := (Nat.mod_lt _ hm).le
  calc (xs.sum + deriveMod m xs) % m
      = (xs.sum % m + (m - xs.sum % m)) % m := by rw [deriveMod, Nat.add_mod_mod, Nat.mod_add_mod]
    _ = 0 := by rw [Nat.add_sub_cancel' hle, Nat.mod_self]

/-- Settles O59: the sums for every total, the remainders for every modulus. -/
theorem derivedElementsMeetSums : Obligations.DerivedElementsMeetSums :=
  ⟨sum_add_deriveToSum 28, sum_add_deriveToSum 66,
    fun xs => ⟨sum_add_deriveMod_mod (by decide) xs, deriveMod_lt (by decide) xs⟩,
    fun xs => ⟨sum_add_deriveMod_mod (by decide) xs, deriveMod_lt (by decide) xs⟩⟩

end Sys2Proof.Machine.Gen2
end

section
/-! PROOFS. A failed command writes nothing, and the next one does not notice it (rules R170, R177, R178). -/

namespace Sys2Proof.Machine

variable {s t : State}

/-! ### A failed command is one that only failed -/

/-- The port gives a well-formed response (rule R58). -/
theorem accept_responseWf {Q : Frame} (h : accept Q s = .next t) : ∃ P, Answered s t P ∧ ResponseWf P := by
  obtain ⟨i, -, hi⟩ | ⟨e, -, he⟩ := accept_cases h
  · exact exec_responseWf hi.symm
  · cases he
    have hne : Status.ofDecodeError e ≠ .okOob := by cases e <;> decide
    exact ⟨_, answered_respond s _ [], responseWf_alone hne⟩

/-- The four commands that write the block's own state answer `OK` or `OK_OOB`; so a failed one only answered
(rule R177). -/
theorem Performs.only_answers {i : Instr} {P : Frame} (h : Performs s i t) (hP : Answered s t P)
    (hfail : failedResponse P = true) : ∃ st payload, t = s.respond st payload := by
  cases h with
  | answer _ st payload => exact ⟨st, payload, rfl⟩
  | cinit | bload | rst | breadOutOfBounds =>
    cases hP.unique ⟨rfl, rfl⟩
    exact absurd hfail (by decide)

/-- A refused frame is only answered, and a command that failed only answered (rule R177). -/
theorem accept_only_answers {Q P : Frame} (h : accept Q s = .next t) (hP : Answered s t P)
    (hfail : failedResponse P = true) : ∃ st payload, t = s.respond st payload := by
  obtain ⟨i, -, hi⟩ | ⟨e, -, he⟩ := accept_cases h
  · exact (exec_performs hi.symm).only_answers hP hfail
  · cases he
    exact ⟨_, [], rfl⟩

/-- Settles O49: a failed command only answered, and a well-formed error response is the status byte alone. -/
theorem failedCommandWritesNothing : Obligations.FailedCommandWritesNothing := by
  intro Q s t P h hP hfail
  obtain ⟨_, hP', _, payload, rfl, halone, -⟩ := accept_responseWf h
  cases hP.unique hP'
  cases halone hfail
  obtain ⟨st, payload, rfl⟩ := accept_only_answers h hP hfail
  obtain ⟨-, hunits, hbuffer⟩ := respond_frame s st payload
  exact ⟨hunits, hbuffer, rfl⟩

/-! ### What a command does is fixed by the block's own state -/

/-- Two runs give one response, from `s` and from `t`, and leave the same units. -/
def AnsweredAlike (s t : State) (o o' : Result) : Prop :=
  ∃ u v P, o = .next u ∧ o' = .next v ∧ Answered s u P ∧ Answered t v P ∧ SameUnits u v

/-- A response changes none of the block's own state, in either run (rules R9, R177). -/
theorem SameUnits.answeredAlike_respond (h : SameUnits s t) (st : Status) (payload : List Byte) :
    AnsweredAlike s t (.next (s.respond st payload)) (.next (t.respond st payload)) :=
  ⟨_, _, _, rfl, rfl, answered_respond s st payload, answered_respond t st payload, h⟩

/-- STATUS is made of the block's own state (rule R20). -/
theorem SameUnits.statusByte_eq (h : SameUnits s t) : s.statusByte = t.statusByte := by
  obtain ⟨hc, hr, hd⟩ := h
  unfold State.statusByte State.cValid State.bValid
  rw [hc, hr, hd]

/-- CENC and CDEC read the cipher unit alone (rules R77, R80). -/
theorem SameUnits.transformCommand_alike (h : SameUnits s t) (f : Block → Block → List Byte → List Byte)
    (data : List Byte) : AnsweredAlike s t (transformCommand f data s) (transformCommand f data t) := by
  obtain ⟨st, payload, hf⟩ := transformCommand_of_cipher f data s.cipher
  rw [hf s rfl, hf t h.1.symm]
  exact h.answeredAlike_respond st payload

/-- No command reads the host's side of the ports: every one does the same from two states with the same units. -/
theorem SameUnits.exec_alike (h : SameUnits s t) (i : Instr) : AnsweredAlike s t (exec i s) (exec i t) := by
  have ⟨hcipher, hreader, hdiag⟩ := h
  cases i with
  | cinit key iv salt =>
    by_cases hlen : key.length = 16 ∧ iv.length = 16 ∧ salt.length = 6
    · exact ⟨_, _, _, execCinit_ok s hlen, execCinit_ok t hlen, ⟨rfl, rfl⟩, ⟨rfl, rfl⟩, rfl, hreader, hdiag⟩
    · exact ⟨_, _, _, execCinit_refused s hlen, execCinit_refused t hlen, ⟨rfl, rfl⟩, ⟨rfl, rfl⟩, h⟩
  | cenc data => exact h.transformCommand_alike encryptFrame data
  | cdec data => exact h.transformCommand_alike decryptFrame data
  | bload data =>
    obtain hlen | hlen := Nat.lt_or_ge Config.frameMax data.length
    · exact ⟨_, _, _, execBload_refused s hlen, execBload_refused t hlen, ⟨rfl, rfl⟩, ⟨rfl, rfl⟩, h⟩
    · exact ⟨_, _, _, execBload_ok s hlen, execBload_ok t hlen, ⟨rfl, rfl⟩, ⟨rfl, rfl⟩, hcipher, rfl, hdiag⟩
  | bread start n le =>
    obtain ⟨st, payload, hr⟩ | hr := execBread_of_reader start n le s.reader
    · exact ⟨_, _, _, hr s rfl, hr t hreader.symm, ⟨rfl, rfl⟩, ⟨rfl, rfl⟩, h⟩
    · exact ⟨_, _, _, hr s rfl, hr t hreader.symm, ⟨rfl, rfl⟩, ⟨rfl, rfl⟩, hcipher, hreader, rfl⟩
  | stat =>
    have hstatus : exec .stat t = .next (t.respond .ok [s.statusByte]) := by
      rw [h.statusByte_eq]; rfl
    exact ⟨_, _, _, rfl, hstatus, ⟨rfl, rfl⟩, ⟨rfl, rfl⟩, h⟩
  | rst => exact ⟨_, _, _, rfl, rfl, ⟨rfl, rfl⟩, ⟨rfl, rfl⟩, rfl, rfl, rfl⟩

/-- A frame is decoded before any state is read (rule R59), so the port does the same from both states. -/
theorem SameUnits.accept_alike (h : SameUnits s t) (Q : Frame) :
    AnsweredAlike s t (accept Q s) (accept Q t) := by
  cases hQ : decode Q with
  | ok i =>
    rw [accept_ok s hQ, accept_ok t hQ]
    exact h.exec_alike i
  | error e =>
    rw [accept_error s hQ, accept_error t hQ]
    exact h.answeredAlike_respond _ []

/-- Settles O50: the failed command only answered, so it left the units that the next one reads. -/
theorem failureIsNotSticky : Obligations.FailureIsNotSticky := by
  intro Q Q' s t P h hP hfail
  obtain ⟨st, payload, rfl⟩ := accept_only_answers h hP hfail
  have hunits : SameUnits (s.respond st payload) s := ⟨rfl, rfl, rfl⟩
  exact hunits.accept_alike Q'

/-- Settles O10: the block takes the host's next act, and there is none. -/
theorem idleBlockWaits : Obligations.IdleBlockWaits := by
  intro s hs
  obtain ⟨-, h⟩ | ⟨Q, rest, hs', -⟩ | ⟨a, rest, hs', -, -⟩ := step_cases (s := s) rfl
  · exact h
  · cases hs.symm.trans hs'
  · cases hs.symm.trans hs'

end Sys2Proof.Machine
end

section
/-! PROOFS. The status of every command frame is the first of rule R176's list whose condition holds. -/

namespace Sys2Proof.Machine

/-! ### Steps 1 to 3: the decoder's refusals -/

/-- The refusals of rule R176, read from the bytes, are the decoder's (rules R61, R62). -/
theorem frameRefusal_cons (op : Byte) (body : Frame) :
    frameRefusal (op :: body) =
      if decode (op :: body) = .error .illegalOp then some .eIllegalOp
      else if decode (op :: body) = .error .malformed then some .eMalformed
      else none := by
  simp [frameRefusal, decode_illegalOp_iff, decode_malformed_iff]

theorem frameRefusal_of_error {Q : Frame} {e : DecodeError} (h : decode Q = .error e) :
    frameRefusal Q = some (Status.ofDecodeError e) := by
  cases Q with
  | nil => cases h; rfl
  | cons op body =>
    rw [frameRefusal_cons, h]
    cases e <;> rfl

theorem frameRefusal_of_ok {Q : Frame} {i : Instr} (h : decode Q = .ok i) : frameRefusal Q = none := by
  cases Q with
  | nil => cases h
  | cons op body => rw [frameRefusal_cons, h]; rfl

/-! ### Steps 4 to 8, read from the bytes of each command -/

variable {s t : State}

theorem prioritisedStatus_of_error {Q : Frame} {e : DecodeError} (s : State) (h : decode Q = .error e) :
    prioritisedStatus Q s = Status.ofDecodeError e := by
  rw [prioritisedStatus, frameRefusal_of_error h]

/-- The three length bytes of CINIT are the lengths of its arrays (rule R53). -/
theorem prioritisedStatus_cinit {key iv salt : List Byte} (s : State)
    (h : (Instr.cinit key iv salt).wellFormed = true) :
    prioritisedStatus (encode (.cinit key iv salt)) s =
      if ¬ (key.length = 16 ∧ iv.length = 16 ∧ salt.length = 6) then .eValidation else .ok := by
  obtain ⟨hkey, hiv, hsalt⟩ := (wellFormed_cinit_iff key iv salt).1 h
  rw [prioritisedStatus, frameRefusal_of_ok (decode_encode h)]
  simp [encode, encodeBody, opcodeOf, opCinit, BitVec.toNat_eq, Nat.mod_eq_of_lt hkey, Nat.mod_eq_of_lt hiv,
    Nat.mod_eq_of_lt hsalt]

/-- CENC and CDEC have the same conditions (rules R77, R80). -/
theorem prioritisedStatus_transform {i : Instr} {data : List Byte} (hi : i = .cenc data ∨ i = .cdec data)
    (s : State) :
    prioritisedStatus (encode i) s =
      if s.cipher = none then .eNotReady
      else if data.length < 16 then .eValidation
      else if Config.frameMax < data.length then .eCapacity else .ok := by
  obtain rfl | rfl := hi
  all_goals
    rw [prioritisedStatus, frameRefusal_of_ok (decode_encode rfl)]
    simp [encode, encodeBody, opcodeOf, opCenc, opCdec]

theorem prioritisedStatus_bload (data : List Byte) (s : State) :
    prioritisedStatus (encode (.bload data)) s =
      if Config.frameMax < data.length then .eCapacity else .ok := by
  rw [prioritisedStatus, frameRefusal_of_ok (decode_encode rfl)]
  simp [encode, encodeBody, opcodeOf, opBload]

/-- The two START bytes of BREAD are read as the start they spell (rule R56). -/
theorem startOf_encode_bread {start : Int} {n : Nat} {le : Bool}
    (h : (Instr.bread start n le).wellFormed = true) : startOf (encode (.bread start n le)) = start := by
  obtain ⟨hmin, hmax, -⟩ := (wellFormed_bread_iff start n le).1 h
  exact (assembleStart_eq _ _).symm.trans (assembleStart_encodeStart hmin hmax)

theorem prioritisedStatus_bread {start : Int} {n : Nat} {le : Bool} (s : State)
    (h : (Instr.bread start n le).wellFormed = true) :
    prioritisedStatus (encode (.bread start n le)) s =
      if s.reader = none then .eNotReady
      else if legalBitLength n = false then .eInvalidArg
      else if inBounds start n ((s.reader.map ReaderUnit.len).getD 0) = false then .okOob else .ok := by
  obtain ⟨-, -, hn⟩ := (wellFormed_bread_iff start n le).1 h
  rw [prioritisedStatus, frameRefusal_of_ok (decode_encode h), startOf_encode_bread h]
  simp only [inBounds_eq_false_iff, ← Bool.not_eq_true (legalBitLength n), legalBitLength_iff]
  simp [encode, encodeBody, opcodeOf, opBread, encodeStart, Nat.mod_eq_of_lt hn]

theorem prioritisedStatus_bare {i : Instr} (hi : i = .stat ∨ i = .rst) (s : State) :
    prioritisedStatus (encode i) s = .ok := by
  obtain rfl | rfl := hi
  all_goals
    rw [prioritisedStatus, frameRefusal_of_ok (decode_encode rfl)]
    simp [encode, encodeBody, opcodeOf, opStat, opRst]

/-! ### Each command answers that status -/

theorem transformCommand_status {f : Block → Block → List Byte → List Byte} {i : Instr} {data : List Byte}
    (hi : i = .cenc data ∨ i = .cdec data) (h : transformCommand f data s = .next t) :
    ∃ payload, Answered s t ((prioritisedStatus (encode i) s).code :: payload) := by
  rw [prioritisedStatus_transform hi]
  obtain ⟨hc, rfl⟩ | ⟨c, hc, hlen, rfl⟩ | ⟨c, hc, hlen, rfl⟩ | ⟨c, hc, hmin, hmax, rfl⟩ := transformCommand_cases h
  · rw [if_pos hc]
    exact ⟨_, answered_respond s _ _⟩
  · rw [if_neg (by simp [hc]), if_pos hlen]
    exact ⟨_, answered_respond s _ _⟩
  · have := Config.frameMax_ge
    rw [if_neg (by simp [hc]), if_neg (by omega), if_pos hlen]
    exact ⟨_, answered_respond s _ _⟩
  · rw [if_neg (by simp [hc]), if_neg (by omega), if_neg (by omega)]
    exact ⟨_, answered_respond s _ _⟩

/-- The status of a command is the one its operands and the unit it reads call for (rule R176). -/
theorem exec_status {i : Instr} (hwf : i.wellFormed = true) (h : exec i s = .next t) :
    ∃ payload, Answered s t ((prioritisedStatus (encode i) s).code :: payload) := by
  cases i with
  | cinit key iv salt =>
    rw [prioritisedStatus_cinit s hwf]
    obtain ⟨hlen, rfl⟩ | ⟨hlen, rfl⟩ := execCinit_cases h
    · rw [if_neg (not_not.2 hlen)]
      exact ⟨_, rfl, rfl⟩
    · rw [if_pos hlen]
      exact ⟨_, rfl, rfl⟩
  | cenc data => exact transformCommand_status (.inl rfl) h
  | cdec data => exact transformCommand_status (.inr rfl) h
  | bload data =>
    rw [prioritisedStatus_bload]
    obtain ⟨hlen, rfl⟩ | ⟨hlen, rfl⟩ := execBload_cases h
    · rw [if_pos hlen]
      exact ⟨_, rfl, rfl⟩
    · rw [if_neg (Nat.not_lt.2 hlen)]
      exact ⟨_, rfl, rfl⟩
  | bread start n le =>
    rw [prioritisedStatus_bread s hwf]
    obtain ⟨hr, rfl⟩ | ⟨r, hr, hn, rfl⟩ | ⟨r, hr, hn, hb, rfl⟩ | ⟨r, hr, hn, hb, rfl⟩ := execBread_cases h
    · rw [if_pos hr]
      exact ⟨_, rfl, rfl⟩
    · rw [if_neg (by simp [hr]), if_pos hn]
      exact ⟨_, rfl, rfl⟩
    · rw [hr, Option.map_some, Option.getD_some, if_neg (by simp), if_neg (by simp [hn]), if_pos hb]
      exact ⟨_, rfl, rfl⟩
    · rw [hr, Option.map_some, Option.getD_some, if_neg (by simp), if_neg (by simp [hn]), if_neg (by simp [hb])]
      exact ⟨_, rfl, rfl⟩
  | stat =>
    cases h
    rw [prioritisedStatus_bare (.inl rfl)]
    exact ⟨_, rfl, rfl⟩
  | rst =>
    cases h
    rw [prioritisedStatus_bare (.inr rfl)]
    exact ⟨_, rfl, rfl⟩

/-- Settles O48: a frame that does not decode is answered by its refusal, and one that decodes is the encoding of its
command, whose status is read from its operands. -/
theorem statusPriority : Obligations.StatusPriority := by
  intro Q s
  cases hQ : decode Q with
  | ok i =>
    obtain ⟨hwf, rfl⟩ := encode_of_decode hQ
    obtain ⟨t, ht⟩ := exec_next i s
    obtain ⟨payload, hP⟩ := exec_status hwf ht
    exact ⟨t, _, (accept_ok s hQ).trans ht, hP, rfl⟩
  | error e =>
    rw [prioritisedStatus_of_error s hQ]
    exact ⟨_, _, accept_error s hQ, answered_respond s _ [], rfl⟩

end Sys2Proof.Machine
end

section
/-! PROOFS. What the reset input and RST leave, and what the block answers from there (spec file 70). -/

namespace Sys2Proof.Machine

/-- Clearing the units reaches the reset state of the block, whatever the state was (rule R191). -/
theorem sameUnits_clearUnits_reset (s : State) : SameUnits s.clearUnits State.reset := ⟨rfl, rfl, rfl⟩

/-- Both acts that assert the reset input clear the units and do nothing else (rule R190). -/
theorem step_resetAct {s : State} {a : HostAct} {rest : List HostAct} (hs : s.stream = a :: rest)
    (ha : a = .reset ∨ ∃ Q, a = .commandThenReset Q) :
    step s = .next { s with stream := rest }.clearUnits := by
  unfold step nextAct
  rw [hs]
  obtain rfl | ⟨Q, rfl⟩ := ha <;> rfl

/-- Settles O11: either act clears the units, keeps the responses and uses up one act of the stream. -/
theorem resetInputClearsBlock : Obligations.ResetInputClearsBlock :=
  fun _ _ _ hs ha => ⟨_, step_resetAct hs ha, sameUnits_clearUnits_reset _, rfl, rfl⟩

/-- Settles O44: RST is clearing the units and then answering, the reset input is clearing them alone; with no unit
there, CENC, CDEC and BREAD are not ready, and every field of STATUS is 0. -/
theorem rstReturnsToReset : Obligations.RstReturnsToReset := by
  intro s
  have hcipher : (s.clearUnits.respond .ok []).cipher = none := rfl
  have hreader : (s.clearUnits.respond .ok []).reader = none := rfl
  refine ⟨s.clearUnits.respond .ok [], rfl, sameUnits_clearUnits_reset s, ⟨rfl, rfl⟩,
    ⟨s.clearUnits, rfl, ⟨rfl, rfl, rfl⟩, rfl⟩, fun data => ?cenc, fun data => ?cdec, fun start n le => ?bread, ?stat⟩
  case cenc => exact ⟨_, transformCommand_notReady encryptFrame data hcipher, answered_respond _ .eNotReady []⟩
  case cdec => exact ⟨_, transformCommand_notReady decryptFrame data hcipher, answered_respond _ .eNotReady []⟩
  case bread => exact ⟨_, execBread_notReady start n le hreader, answered_respond _ .eNotReady []⟩
  case stat => exact ⟨_, rfl, answered_respond _ .ok [0x00]⟩

end Sys2Proof.Machine
end
